-- ==== Sys2Proof/Word.lean ====
section
/-! DEFINITION. The word and byte of X86lite (00_scope.md R6, R7). -/

namespace Sys2Proof

/-- A quadword: a vector of 64 bits (R6). `uval` is `BitVec.toNat`, `sval` is `BitVec.toInt`, `bv64` is
`BitVec.ofNat 64` or `BitVec.ofInt 64`; `+64`, `-64`, `*64` are `+`, `-`, `*` (R8). -/
abbrev Word := BitVec 64

/-- A byte: a vector of 8 bits (R6). -/
abbrev Byte := BitVec 8

/-- `MIN_INT` (R7). -/
def minInt : Word := 0x8000000000000000

/-- `MAX_INT` (R7). -/
def maxInt : Word := 0x7fffffffffffffff

/-- The number of bytes of memory, 2^64 (20_memory.md R50). -/
def memSize : Nat := 0x10000000000000000

end Sys2Proof
end

