-- ==== Sys2Proof/Config.lean ====
section
/-! DEFINITION. What the source leaves open (00_scope.md R5): the policies, each with every setting the spec describes,
the launch values State.reset takes, and the free values. -/

namespace Sys2Proof

/-- How an instruction stands in memory (R5, 92_eei_decisions.md D1). `symbolic` is the cells of 20_memory.md R52. It is
the one setting that any file of the spec describes, and a bit layout cannot be exact (30_encoding.md R82); log 1. -/
inductive CellModel where
  | symbolic
  deriving DecidableEq, Repr

/-- The order of the eight bytes of a quadword in memory (R5, 20_memory.md R54, D2; 95_test_vectors.md P4 names the
second setting; log 12). -/
inductive ByteOrder where
  | little | big
  deriving DecidableEq, Repr

/-- An access or fetch whose bytes run past address 2^64 - 1 (20_memory.md R60, D4). -/
inductive TopWrapPolicy where
  | fault | wrap
  deriving DecidableEq, Repr

/-- A data read of a cell that holds part of an instruction (20_memory.md R61, D5). -/
inductive CodeReadPolicy where
  | fault | anyValue
  deriving DecidableEq, Repr

/-- A shift amount outside 0..63 (43_bit_manipulation.md R174, D9). -/
inductive ShiftRangePolicy where
  | fault | mask6 | math
  deriving DecidableEq, Repr

/-- `pushq`, `callq`, `popq` whose operand reads or writes `rsp` (44_data_movement.md R192, R193, D10). -/
inductive RspOperandPolicy where
  | literal | refuse
  deriving DecidableEq, Repr

/-- The policies of R5. They are launch parameters: `State` carries them and no instruction writes them (log 8). -/
structure Config where
  cellModel : CellModel
  byteOrder : ByteOrder
  topWrap : TopWrapPolicy
  codeRead : CodeReadPolicy
  shiftRange : ShiftRangePolicy
  rspOperand : RspOperandPolicy
  deriving DecidableEq, Repr

/-- The defaults of R5. -/
def Config.defaults : Config :=
  { cellModel := .symbolic, byteOrder := .little, topWrap := .fault, codeRead := .fault, shiftRange := .fault,
    rspOperand := .literal }

/-- `Entry` of State.reset. DESIGN CHOICE (log 5, unsafe): the launch of 95_test_vectors.md Part 3. -/
def Config.entry : Word := 0x400000

/-- `Rsp0` of State.reset. DESIGN CHOICE (log 5, unsafe): the launch of 95_test_vectors.md Part 3. -/
def Config.rsp0 : Word := 0x7ffffff8

/-- `HaltAddr` of State.reset. DESIGN CHOICE (log 5, unsafe): the launch of 95_test_vectors.md Part 3. -/
def Config.haltAddr : Word := 0xdead0000

/-- `draw_bit()` (40_operands_and_condition_codes.md R118): a bit that no rule fixes. The first argument is the
step's draw number (`State.draws`), the second which call of that step it is. It has no body: nothing can be
proved of its values (log 10). -/
opaque Config.freeBit : Nat → Nat → Bool

/-- A byte of an instruction read as data under `CodeReadPolicy = any value` (20_memory.md R61): "each such byte is a
draw of 8 bits, fresh at every read". The first argument is the draw number of the state. The second is
the byte's place in an instruction's read, 0 to 7, or 8 and the number of the host's read (log 11). -/
opaque Config.freeByte : Nat → Nat → Byte

end Sys2Proof
end

