-- ==== Sys2Proof/Term.lean ====
section
/-! DEFINITION. Registers, condition codes, operands, opcodes, the terms of the abstract syntax, and the cells of
memory that hold them (10_state.md R21, R41; 30_encoding.md R81 to R88; 20_memory.md R52). -/

namespace Sys2Proof

/-- The sixteen general registers, in the order of the table of R21. They have no numbers (R41). -/
inductive Gpr where
  | rax | rbx | rcx | rdx | rsi | rdi | rbp | rsp
  | r08 | r09 | r10 | r11 | r12 | r13 | r14 | r15
  deriving DecidableEq, Repr

/-- A register as an operand names it: "One of the sixteen machine registers, or `rip`" (R86). -/
inductive Reg where
  | gpr (r : Gpr)
  | rip
  deriving DecidableEq, Repr

/-- The three condition flags (R27). -/
inductive Flag where
  | of | sf | zf
  deriving DecidableEq, Repr

/-- The six condition codes (40_operands_and_condition_codes.md R120 to R125, R127). -/
inductive CondCode where
  | eq | neq | lt | le | gt | ge
  deriving DecidableEq, Repr

/-- The five operand kinds (R84 to R87). Immediates and displacements are whole quadwords. -/
inductive Operand where
  | imm (i : Word)
  | reg (r : Reg)
  | ind1 (d : Word)
  | ind2 (r : Reg)
  | ind3 (d : Word) (r : Reg)
  deriving DecidableEq, Repr

/-- `Ind` stands for any of the three indirect kinds (R84). -/
def Operand.isInd : Operand → Bool
  | .imm _ => false
  | .reg _ => false
  | .ind1 _ => true
  | .ind2 _ => true
  | .ind3 _ _ => true

/-- The opcodes of R81; the condition code of `setb` and `j` is part of the opcode. -/
inductive Opcode where
  | negq | addq | subq | imulq | incq | decq
  | notq | andq | orq | xorq
  | sarq | shlq | shrq | setb (cc : CondCode)
  | leaq | movq | pushq | popq
  | cmpq | jmp | callq | retq | j (cc : CondCode)
  deriving DecidableEq, Repr

/-- The operand count of each opcode (the column `count` of R90). -/
def Opcode.arity : Opcode → Nat
  | .negq | .incq | .decq | .notq | .setb _ | .pushq | .popq | .jmp | .callq | .j _ => 1
  | .addq | .subq | .imulq | .andq | .orq | .xorq | .sarq | .shlq | .shrq | .leaq | .movq | .cmpq => 2
  | .retq => 0

/-- A term of R81: an opcode and a list of operands, in source order. Nothing here limits the count: a term of the
wrong count can stand in memory and is ill-formed (R91). -/
structure Term where
  op : Opcode
  operands : List Operand
  deriving DecidableEq, Repr

/-- One cell of memory (R52). "Holds no value" (10_state.md R40) is the absence of a cell, `none` in
`Option MemCell`. -/
inductive MemCell where
  | byte (b : Byte)
  | insHead (t : Term)
  | insTail
  deriving DecidableEq, Repr

end Sys2Proof
end

