-- ==== Sys2Proof/Syntax.lean ====
section
/-! DEFINITION. The instructions: one constructor per row of spec/opcode_table.json (30_encoding.md R81, R90), the
operands in source order (SRC before DEST, AMT before DEST, SRC1 before SRC2). -/

namespace Sys2Proof

/-- The 23 instructions, `setb` and `j` once per condition code: the 33 rows of the opcode table. An operand may be of
any kind here; which kinds an instruction admits is Sys2Proof/WellFormed.lean. -/
inductive Instr where
  -- 41_arithmetic.md
  | negq (dst : Operand)
  | addq (src dst : Operand)
  | subq (src dst : Operand)
  | imulq (src dst : Operand)
  | incq (dst : Operand)
  | decq (dst : Operand)
  -- 42_logic.md
  | notq (dst : Operand)
  | andq (src dst : Operand)
  | orq (src dst : Operand)
  | xorq (src dst : Operand)
  -- 43_bit_manipulation.md
  | sarq (amt dst : Operand)
  | shlq (amt dst : Operand)
  | shrq (amt dst : Operand)
  | setbEq (dst : Operand)
  | setbNeq (dst : Operand)
  | setbLt (dst : Operand)
  | setbLe (dst : Operand)
  | setbGt (dst : Operand)
  | setbGe (dst : Operand)
  -- 44_data_movement.md
  | leaq (src dst : Operand)
  | movq (src dst : Operand)
  | pushq (src : Operand)
  | popq (dst : Operand)
  -- 45_control_flow.md
  | cmpq (src1 src2 : Operand)
  | jmp (src : Operand)
  | callq (src : Operand)
  | retq
  | jEq (src : Operand)
  | jNeq (src : Operand)
  | jLt (src : Operand)
  | jLe (src : Operand)
  | jGt (src : Operand)
  | jGe (src : Operand)
  deriving DecidableEq, Repr

/-- The instruction `setb(cc)` of R173. -/
def Instr.setb : CondCode → Operand → Instr
  | .eq, dst => .setbEq dst
  | .neq, dst => .setbNeq dst
  | .lt, dst => .setbLt dst
  | .le, dst => .setbLe dst
  | .gt, dst => .setbGt dst
  | .ge, dst => .setbGe dst

/-- The instruction `j(cc)` of R214. -/
def Instr.j : CondCode → Operand → Instr
  | .eq, src => .jEq src
  | .neq, src => .jNeq src
  | .lt, src => .jLt src
  | .le, src => .jLe src
  | .gt, src => .jGt src
  | .ge, src => .jGe src

/-- The term of an instruction (the column `term` of spec/opcode_table.json; R81). -/
def Instr.term : Instr → Term
  | .negq dst => ⟨.negq, [dst]⟩
  | .addq src dst => ⟨.addq, [src, dst]⟩
  | .subq src dst => ⟨.subq, [src, dst]⟩
  | .imulq src dst => ⟨.imulq, [src, dst]⟩
  | .incq dst => ⟨.incq, [dst]⟩
  | .decq dst => ⟨.decq, [dst]⟩
  | .notq dst => ⟨.notq, [dst]⟩
  | .andq src dst => ⟨.andq, [src, dst]⟩
  | .orq src dst => ⟨.orq, [src, dst]⟩
  | .xorq src dst => ⟨.xorq, [src, dst]⟩
  | .sarq amt dst => ⟨.sarq, [amt, dst]⟩
  | .shlq amt dst => ⟨.shlq, [amt, dst]⟩
  | .shrq amt dst => ⟨.shrq, [amt, dst]⟩
  | .setbEq dst => ⟨.setb .eq, [dst]⟩
  | .setbNeq dst => ⟨.setb .neq, [dst]⟩
  | .setbLt dst => ⟨.setb .lt, [dst]⟩
  | .setbLe dst => ⟨.setb .le, [dst]⟩
  | .setbGt dst => ⟨.setb .gt, [dst]⟩
  | .setbGe dst => ⟨.setb .ge, [dst]⟩
  | .leaq src dst => ⟨.leaq, [src, dst]⟩
  | .movq src dst => ⟨.movq, [src, dst]⟩
  | .pushq src => ⟨.pushq, [src]⟩
  | .popq dst => ⟨.popq, [dst]⟩
  | .cmpq src1 src2 => ⟨.cmpq, [src1, src2]⟩
  | .jmp src => ⟨.jmp, [src]⟩
  | .callq src => ⟨.callq, [src]⟩
  | .retq => ⟨.retq, []⟩
  | .jEq src => ⟨.j .eq, [src]⟩
  | .jNeq src => ⟨.j .neq, [src]⟩
  | .jLt src => ⟨.j .lt, [src]⟩
  | .jLe src => ⟨.j .le, [src]⟩
  | .jGt src => ⟨.j .gt, [src]⟩
  | .jGe src => ⟨.j .ge, [src]⟩

end Sys2Proof
end

