-- ==== Sys2Proof/WellFormed.lean ====
section
/-! DEFINITION. Which terms are instructions (30_encoding.md R91 to R95): one named check per rule, each a Bool. The
operand count of R91 is fixed by the constructors of Instr; a term of the wrong count is refused by the decoder
(Sys2Proof/Decode.lean). -/

namespace Sys2Proof

/-- The operand an instruction writes: every `DEST`, and the `Reg` of `imulq` (R93, R95). `cmpq`, `pushq` and the
control-flow instructions write no operand. -/
def Instr.written : Instr → Option Operand
  | .negq dst | .incq dst | .decq dst | .notq dst | .popq dst => some dst
  | .addq _ dst | .subq _ dst | .imulq _ dst | .andq _ dst | .orq _ dst | .xorq _ dst => some dst
  | .sarq _ dst | .shlq _ dst | .shrq _ dst | .leaq _ dst | .movq _ dst => some dst
  | .setbEq dst | .setbNeq dst | .setbLt dst | .setbLe dst | .setbGt dst | .setbGe dst => some dst
  | .pushq _ | .cmpq _ _ | .jmp _ | .callq _ | .retq => none
  | .jEq _ | .jNeq _ | .jLt _ | .jLe _ | .jGt _ | .jGe _ => none

/-- R92: "instructions that involve two operands must not use two memory (`Ind`) operands". -/
def Instr.notTwoInd (i : Instr) : Bool :=
  match i.term.operands with
  | [a, b] => !(a.isInd && b.isInd)
  | _ => true

/-- R93: "Immediate values and labels do not denote valid locations." -/
def Instr.immNotWritten (i : Instr) : Bool :=
  match i.written with
  | some (.imm _) => false
  | _ => true

/-- R94: "`AMT` must be a `Imm` or `rcx` operand". -/
def Operand.isAmount : Operand → Bool
  | .imm _ => true
  | .reg r => r == .gpr .rcx
  | .ind1 _ => false
  | .ind2 _ => false
  | .ind3 _ _ => false

/-- R94: "must be an operand of type `ind`" for the first operand of `leaq`; the second operand of `imulq` is a
register; `AMT` of a shift is an `Imm` or `rcx`. -/
def Instr.kindsOk : Instr → Bool
  | .sarq amt _ | .shlq amt _ | .shrq amt _ => amt.isAmount
  | .leaq src _ => src.isInd
  | .imulq _ dst => !dst.isInd
  | _ => true

/-- R95: only the control-flow instructions write `rip`, and none of them names it as a written operand. -/
def Instr.ripNotWritten (i : Instr) : Bool :=
  match i.written with
  | some (.reg .rip) => false
  | _ => true

/-- The operands `Reg(rsp)`, `Ind2(rsp)`, `Ind3(d, rsp)` (R192). -/
def Operand.usesRsp : Operand → Bool
  | .imm _ => false
  | .reg r => r == .gpr .rsp
  | .ind1 _ => false
  | .ind2 r => r == .gpr .rsp
  | .ind3 _ r => r == .gpr .rsp

/-- D10: under `RspOperandPolicy = refuse` the operand of `pushq`, `callq`, `popq` must not use `rsp`. -/
def Instr.rspOperandOk (p : RspOperandPolicy) (i : Instr) : Bool :=
  match p with
  | .literal => true
  | .refuse =>
    match i with
    | .pushq src => !src.usesRsp
    | .callq src => !src.usesRsp
    | .popq dst => !dst.usesRsp
    | _ => true

/-- A well-formed instruction: all the named checks (R96). -/
def Instr.wellFormed (p : RspOperandPolicy) (i : Instr) : Bool :=
  i.notTwoInd && i.immNotWritten && i.kindsOk && i.ripNotWritten && i.rspOperandOk p

end Sys2Proof
end

