-- ==== Sys2Proof/Decode.lean ====
section
/-! DEFINITION. The decoder and the encoder. X86lite has no bit encoding (30_encoding.md R80, R82): the eight byte
positions of an instruction are opaque, and the cells say which term they spell (20_memory.md R52). So the decoder
reads eight cells: `InsHead(term)` and seven `InsTail` (R53, R58), and then the term's constructor (R83, R88). It is
total on any list of cells and rejects by name. -/

namespace Sys2Proof

/-- Why cells spell no instruction. -/
inductive DecodeError where
  /-- The first cell is no `InsHead` (R58: `F_FETCH`). -/
  | noHead
  /-- The cells after the head are not seven `InsTail` (R58: `F_FETCH`). -/
  | brokenTail
  /-- A whole term stands here and has not the operand count of its opcode (R91: `F_ILLFORMED`). -/
  | operandCount
  deriving DecidableEq, Repr

/-- From a term to its instruction: the opcode with exactly its number of operands (R90, R91). -/
def decodeTerm (t : Term) : Option Instr :=
  match t.op, t.operands with
  | .negq, [dst] => some (.negq dst)
  | .addq, [src, dst] => some (.addq src dst)
  | .subq, [src, dst] => some (.subq src dst)
  | .imulq, [src, dst] => some (.imulq src dst)
  | .incq, [dst] => some (.incq dst)
  | .decq, [dst] => some (.decq dst)
  | .notq, [dst] => some (.notq dst)
  | .andq, [src, dst] => some (.andq src dst)
  | .orq, [src, dst] => some (.orq src dst)
  | .xorq, [src, dst] => some (.xorq src dst)
  | .sarq, [amt, dst] => some (.sarq amt dst)
  | .shlq, [amt, dst] => some (.shlq amt dst)
  | .shrq, [amt, dst] => some (.shrq amt dst)
  | .setb .eq, [dst] => some (.setbEq dst)
  | .setb .neq, [dst] => some (.setbNeq dst)
  | .setb .lt, [dst] => some (.setbLt dst)
  | .setb .le, [dst] => some (.setbLe dst)
  | .setb .gt, [dst] => some (.setbGt dst)
  | .setb .ge, [dst] => some (.setbGe dst)
  | .leaq, [src, dst] => some (.leaq src dst)
  | .movq, [src, dst] => some (.movq src dst)
  | .pushq, [src] => some (.pushq src)
  | .popq, [dst] => some (.popq dst)
  | .cmpq, [src1, src2] => some (.cmpq src1 src2)
  | .jmp, [src] => some (.jmp src)
  | .callq, [src] => some (.callq src)
  | .retq, [] => some .retq
  | .j .eq, [src] => some (.jEq src)
  | .j .neq, [src] => some (.jNeq src)
  | .j .lt, [src] => some (.jLt src)
  | .j .le, [src] => some (.jLe src)
  | .j .gt, [src] => some (.jGt src)
  | .j .ge, [src] => some (.jGe src)
  | _, _ => none

/-- The decidable check of R96 on a term: the operand count and kinds of R91, and R92 to R95 (with D10). -/
def Term.wellFormed (p : RspOperandPolicy) (t : Term) : Bool :=
  match decodeTerm t with
  | some i => i.wellFormed p
  | none => false

/-- The seven `InsTail` cells after a head (R53). -/
def tailCells : List (Option MemCell) := List.replicate 7 (some .insTail)

/-- The decoder: what instruction a list of cells spells. `none` in the list is a cell that holds no value; it is
neither a head nor a tail (R58). -/
def decode : List (Option MemCell) → Except DecodeError Instr
  | some (.insHead t) :: tail =>
    if tail = tailCells then
      match decodeTerm t with
      | some i => .ok i
      | none => .error .operandCount
    else .error .brokenTail
  | _ => .error .noHead

/-- The encoder: the eight cells of an instruction (R53). -/
def encode (i : Instr) : List MemCell :=
  .insHead i.term :: List.replicate 7 .insTail

/-- The first eight bytes of a number, least significant first. -/
def bytesOfNat (n w : Nat) : List Byte :=
  (List.range n).map fun k => BitVec.ofNat 8 (w / 2 ^ (8 * k))

/-- The number the host names, of `nbits` bits, as the eight bytes of an instruction (R80: "always 8-bytes"; bits
above `nbits` are 0). -/
def tableWordBytes (nbits w : Nat) : List Byte := bytesOfNat 8 (w % 2 ^ nbits)

/-- What the decoder reads from an instruction given as bits: nothing. The encoding is "unspecified" (R80) and no
encoding can exist (R82), so eight `Byte` cells are data and spell no instruction (R58, D1: "no bit of the encoding
is ever a value"). The bytes are laid out and given to the decoder all the same (log 2). -/
def decodeTableWord (nbits w : Nat) : Option Instr :=
  match decode ((tableWordBytes nbits w).map fun b => some (.byte b)) with
  | .ok i => some i
  | .error _ => none

end Sys2Proof
end

