-- ==== Sys2Proof/Machine/State.lean ====
section
/-! DEFINITION. The state of the machine (10_state.md R20), its faults (60_exceptions.md R241), and the state after
reset. Plain data throughout. -/

namespace Sys2Proof.Machine

/-- The sixteen general registers (R21). `none` is the spec's own state "holds no value" (R40), which only a launch
can give a register (70_reset_and_hazards.md R273): State.reset gives every register a value, and no step takes one
away (Obligations.StepKeepsRegistersAndFlagsValued; log 7). -/
structure RegFile where
  rax : Option Word
  rbx : Option Word
  rcx : Option Word
  rdx : Option Word
  rsi : Option Word
  rdi : Option Word
  rbp : Option Word
  rsp : Option Word
  r08 : Option Word
  r09 : Option Word
  r10 : Option Word
  r11 : Option Word
  r12 : Option Word
  r13 : Option Word
  r14 : Option Word
  r15 : Option Word
  deriving DecidableEq, Repr

/-- The three condition flags (R27), one bit each; `none` is "holds no value" (R40), as in `RegFile`. -/
structure Flags where
  of : Option Bool
  sf : Option Bool
  zf : Option Bool
  deriving DecidableEq, Repr

/-- Memory (20_memory.md R50, R52): a list of (address, cell), addresses strictly rising and below 2^64. An address
not listed holds no value (R40, R274), and no listed entry says so, since `MemCell` has no such cell (log 6). -/
abbrev Memory := List (Nat × MemCell)

/-- The canonical form of a memory: addresses strictly rising, each below 2^64. -/
def Memory.wf : Memory → Bool
  | [] => true
  | [(a, _)] => decide (a < memSize)
  | (a, _) :: (b, c) :: m => decide (a < b) && Memory.wf ((b, c) :: m)

/-- The whole state. `regs`, `rip`, `flags`, `mem` are the machine's (R20). `haltAddr` and `config` are launch
parameters that R5 lets a model take "as fields of a configuration or of the launch state" (log 8); `draws` is the
model's counter for the free values of R118 (log 10). -/
structure State where
  regs : RegFile
  /-- R25; always holds a value (R113). -/
  rip : Word
  flags : Flags
  mem : Memory
  /-- The model's own: `HaltAddr` (R276). -/
  haltAddr : Word
  /-- The model's own: the policies of R5. -/
  config : Config
  /-- The model's own: the draw number of the step being taken. -/
  draws : Nat
  deriving DecidableEq, Repr

/-- What holds no value, in `F_UNINIT`: "the register name, flag name, or address of the cell" (R241). -/
inductive Unset where
  | reg (r : Gpr)
  | flag (f : Flag)
  | cell (a : Word)
  deriving DecidableEq, Repr

/-- The six faults of R241. Every one is terminal (R240) and safe: it ends the run, and a faulted run satisfies no
claim about a final state. -/
inductive Fault where
  /-- Code 1, `F_FETCH`: raised by the fetch of every step where no whole instruction stands at the address (R242).
  Safe. -/
  | fetch (a : Word)
  /-- Code 2, `F_ILLFORMED`: raised by every step after the fetch when the term at the address is ill-formed (R243).
  Safe. -/
  | illFormed (a : Word)
  /-- Code 3, `F_ADDR_WRAP`: raised by a memory access whose bytes pass the top, under `TopWrapPolicy = fault`
  (R244). Safe. -/
  | addrWrap (a : Word)
  /-- Code 4, `F_CODE_READ`: raised by a data read of an instruction's cell, under `CodeReadPolicy = fault` (R245).
  Safe. -/
  | codeRead (a : Word)
  /-- Code 5, `F_SHIFT_RANGE`: raised by `sarq`, `shlq`, `shrq` for an amount over 63, under
  `ShiftRangePolicy = fault` (R246). Safe. -/
  | shiftRange (amount : Word)
  /-- Code 6, `F_UNINIT`: raised by a read of a register, flag or cell that holds no value (R247). Safe. -/
  | uninit (what : Unset)
  deriving DecidableEq, Repr

/-- Why `step` answers neither a next state nor a fault. -/
inductive Refusal where
  /-- An instruction of the table without a meaning, by its mnemonic. No arm of `exec` uses it: every instruction has
  its meaning. Safe. -/
  | notModelled (mnemonic : String)
  /-- The run has ended: `rip = HaltAddr` at the start of a step, "there is no step" (R130, R276). Raised by `step`
  alone; the state is the final state. Safe (log 9). -/
  | runEnded
  deriving DecidableEq, Repr

/-- The registers after reset: `rsp = Rsp0`, the others 0. DESIGN CHOICE (logs 3, 5): unsafe; the spec gives no value
(R39) and lets a model take all values, which a claim about every state does. -/
def RegFile.reset : RegFile :=
  { rax := some 0, rbx := some 0, rcx := some 0, rdx := some 0,
    rsi := some 0, rdi := some 0, rbp := some 0, rsp := some Config.rsp0,
    r08 := some 0, r09 := some 0, r10 := some 0, r11 := some 0,
    r12 := some 0, r13 := some 0, r14 := some 0, r15 := some 0 }

/-- Memory after reset: the eight `Byte` cells of `HaltAddr` at `Rsp0`, the lowest byte first, and nothing else
(70_reset_and_hazards.md R272, R274, R275; log 6). -/
def Memory.reset : Memory :=
  [(0x7ffffff8, .byte 0x00), (0x7ffffff9, .byte 0x00), (0x7ffffffa, .byte 0xad), (0x7ffffffb, .byte 0xde),
    (0x7ffffffc, .byte 0x00), (0x7ffffffd, .byte 0x00), (0x7ffffffe, .byte 0x00), (0x7fffffff, .byte 0x00)]

/-- The machine right after reset (logs 3 to 6, 8, 10). The machine has no reset of its own (R270); this is the launch
with the spec's default policies whose `Mem0` is empty but for `HaltAddr` at `Rsp0` (Tests.test_reset_is_a_launch). A
launch with chosen values is Sys2Proof/Machine/Launch.lean. -/
def State.reset : State :=
  { regs := RegFile.reset
    rip := Config.entry
    flags := { of := some false, sf := some false, zf := some false }
    mem := Memory.reset
    haltAddr := Config.haltAddr
    config := Config.defaults
    draws := 0 }

end Sys2Proof.Machine
end

