-- ==== Sys2Proof/Machine/Ops.lean ====
section
/-! DEFINITION. The named operations over registers and memory: `x[r]`, `MemRead`, `MemWrite`, `Fetch` (00_scope.md
R9; 20_memory.md R56 to R58), and the raising of a fault.

Raising a fault is `Except.error`: it ends the step at once and saves nothing (60_exceptions.md R240). There is no
trap entry and no return from one on this hardware (R249, R251), so there is no operation that takes an exception. -/

namespace Sys2Proof.Machine

/-- The result of a rule's statements, as the step's outcome (R240). -/
def outcome : Except Fault State → Host.Outcome State Fault Refusal
  | .ok s => .next s
  | .error f => .fault f

/-! ## Registers -/

/-- The value a general register holds, or `none` where it holds no value (R40). -/
def RegFile.get (f : RegFile) : Gpr → Option Word
  | .rax => f.rax
  | .rbx => f.rbx
  | .rcx => f.rcx
  | .rdx => f.rdx
  | .rsi => f.rsi
  | .rdi => f.rdi
  | .rbp => f.rbp
  | .rsp => f.rsp
  | .r08 => f.r08
  | .r09 => f.r09
  | .r10 => f.r10
  | .r11 => f.r11
  | .r12 => f.r12
  | .r13 => f.r13
  | .r14 => f.r14
  | .r15 => f.r15

/-- A register write replaces all 64 bits and gives the register a value (R114, R247). -/
def RegFile.set (f : RegFile) (r : Gpr) (v : Word) : RegFile :=
  match r with
  | .rax => { f with rax := some v }
  | .rbx => { f with rbx := some v }
  | .rcx => { f with rcx := some v }
  | .rdx => { f with rdx := some v }
  | .rsi => { f with rsi := some v }
  | .rdi => { f with rdi := some v }
  | .rbp => { f with rbp := some v }
  | .rsp => { f with rsp := some v }
  | .r08 => { f with r08 := some v }
  | .r09 => { f with r09 := some v }
  | .r10 => { f with r10 := some v }
  | .r11 => { f with r11 := some v }
  | .r12 => { f with r12 := some v }
  | .r13 => { f with r13 := some v }
  | .r14 => { f with r14 := some v }
  | .r15 => { f with r15 := some v }

/-- What a general register of a state holds. -/
def State.gpr (s : State) (r : Gpr) : Option Word := s.regs.get r

/-- `x[r] <- v` for a general register. -/
def State.setGpr (s : State) (r : Gpr) (v : Word) : State := { s with regs := s.regs.set r v }

/-- `rip <- t`. -/
def State.setRip (s : State) (t : Word) : State := { s with rip := t }

/-- `x[r]` for a general register (R113): `F_UNINIT` where it holds no value. -/
def readGpr (r : Gpr) (s : State) : Except Fault Word :=
  match s.gpr r with
  | some v => .ok v
  | none => .error (.uninit (.reg r))

/-- `x[r]` for any of the 17 names (R113): "`x[rip]` always has a value", the address of the next instruction. -/
def readReg (r : Reg) (s : State) : Except Fault Word :=
  match r with
  | .gpr g => readGpr g s
  | .rip => .ok s.rip

/-! ## Memory as a list of cells -/

/-- The cell at an address, or `none` where it holds no value. -/
def Memory.get (m : Memory) (a : Nat) : Option MemCell :=
  match m with
  | [] => none
  | (b, c) :: m => if a = b then some c else Memory.get m a

/-- Write one cell and keep the canonical form. -/
def Memory.set (m : Memory) (a : Nat) (c : MemCell) : Memory :=
  match m with
  | [] => [(a, c)]
  | (b, d) :: m =>
    if a < b then (a, c) :: (b, d) :: m
    else if a = b then (a, c) :: m
    else (b, d) :: Memory.set m a c

/-- Write cells from an address upward, the address modulo 2^64 (R57, R59). -/
def Memory.setCells (m : Memory) (a : Word) (cs : List MemCell) : Memory :=
  match cs with
  | [] => m
  | c :: cs => Memory.setCells (m.set a.toNat c) (a + 1) cs

/-- The cell at an address of a state. -/
def State.cell (s : State) (a : Word) : Option MemCell := s.mem.get a.toNat

/-- The `n` cells from an address upward, the address modulo 2^64. -/
def State.cells (s : State) (a : Word) : Nat → List (Option MemCell)
  | 0 => []
  | n + 1 => s.cell a :: State.cells s (a + 1) n

/-- Write cells of a state. -/
def State.setCells (s : State) (a : Word) (cs : List MemCell) : State := { s with mem := s.mem.setCells a cs }

/-! ## Byte order -/

/-- Byte `k` of a quadword, bits 8k+7 to 8k (R54). -/
def byteAt (v : Word) (k : Nat) : Byte := v.extractLsb' (8 * k) 8

/-- How many addresses above that of the quadword its byte `k` stands: `k` under the default order (R54), and `7 - k`
under big-endian (log 12). -/
def byteIndex (o : ByteOrder) (k : Nat) : Nat :=
  match o with
  | .little => k
  | .big => 7 - k

/-- The bytes of a quadword between their order from the lowest, and their order in memory from the lowest address. -/
def orderBytes (o : ByteOrder) (bs : List Byte) : List Byte :=
  match o with
  | .little => bs
  | .big => bs.reverse

/-- The bytes of a quadword as they stand in memory, that of the lowest address first (R54, R57; log 12). -/
def quadBytes (o : ByteOrder) (v : Word) : List Byte :=
  orderBytes o [byteAt v 0, byteAt v 1, byteAt v 2, byteAt v 3, byteAt v 4, byteAt v 5, byteAt v 6, byteAt v 7]

/-- `b_7 ++ ... ++ b_0` (R56) of the list `b_0, ..., b_7`. -/
def concatBytes : List Byte → Word
  | [] => 0
  | b :: bs => (concatBytes bs <<< 8) ||| b.setWidth 64

/-- The quadword that bytes of memory are, that of the lowest address first (R54, R56; log 12). -/
def joinBytes (o : ByteOrder) (bs : List Byte) : Word := concatBytes (orderBytes o bs)

/-- The address of the lower byte of the quadword at `a`: `a` "itself, because the byte order is little-endian"
(43_bit_manipulation.md R173), and the last of the eight under big-endian (log 27). -/
def lowByteAddr (a : Word) (s : State) : Word :=
  match s.config.byteOrder with
  | .little => a
  | .big => a + 7

/-! ## The access primitives -/

/-- Whether an access of n bytes at an address stays below the top of memory (R60). -/
def fitsBelowTop (a : Word) (n : Nat) : Bool := decide (a.toNat + n ≤ memSize)

/-- Whether an access of n bytes at an address may be made: the first test of each primitive, dropped under
`TopWrapPolicy = wrap` (R60). -/
def accessOk (a : Word) (n : Nat) (s : State) : Bool :=
  match s.config.topWrap with
  | .fault => fitsBelowTop a n
  | .wrap => true

/-- The first test of `MemRead` and `MemWrite`: `F_ADDR_WRAP` (R56, R57, R244). -/
def checkAccess (a : Word) (n : Nat) (s : State) : Except Fault Unit :=
  if accessOk a n s then .ok () else .error (.addrWrap a)

/-- The byte one cell gives to a data read (R56): no value is `F_UNINIT`; an instruction's cell is `F_CODE_READ`, or
under `CodeReadPolicy = any value` a free byte (R61), `k` being its place among the draws of this step or state
(log 11). -/
def readCell (a : Word) (k : Nat) (s : State) : Except Fault Byte :=
  match s.cell a with
  | none => .error (.uninit (.cell a))
  | some (.byte b) => .ok b
  | some (.insHead _) | some .insTail =>
    match s.config.codeRead with
    | .fault => .error (.codeRead a)
    | .anyValue => .ok (Config.freeByte s.draws k)

/-- `n` bytes from address `a` upward, from the lowest; the first cell that fails names the fault (R56). -/
def readBytes (a : Word) (k : Nat) (s : State) : Nat → Except Fault (List Byte)
  | 0 => .ok []
  | n + 1 => do
    let b ← readCell a k s
    let bs ← readBytes (a + 1) (k + 1) s n
    return b :: bs

/-- `MemRead(a, 8)` (R56). -/
def memRead (a : Word) (s : State) : Except Fault Word := do
  checkAccess a 8 s
  let bs ← readBytes a 0 s 8
  return joinBytes s.config.byteOrder bs

/-- `MemRead(a, 1)` (R56), "defined for the host". `r` is the number of the host's read in this state: under
`CodeReadPolicy = any value` reads of other numbers are other draws, and no instruction's draw is one of them (R61,
"fresh at every read"; log 11). -/
def memReadByte (r : Nat) (a : Word) (s : State) : Except Fault Byte := do
  checkAccess a 1 s
  readCell a (8 + r) s

/-- Put bytes in memory as `Byte` cells (R57). -/
def State.setBytes (s : State) (a : Word) (bs : List Byte) : State := s.setCells a (bs.map .byte)

/-- `MemWrite(a, 8, v)` (R57): the check runs before any cell is written. -/
def memWrite (a : Word) (v : Word) (s : State) : Except Fault State := do
  checkAccess a 8 s
  return s.setBytes a (quadBytes s.config.byteOrder v)

/-- `MemWrite(a, 1, b)` (R57). -/
def memWriteByte (a : Word) (b : Byte) (s : State) : Except Fault State := do
  checkAccess a 1 s
  return s.setBytes a [b]

/-! ## Fetch -/

/-- What a fetch finds at an address (R58): `F_FETCH` where no whole instruction stands there. A whole term with the
wrong number of operands is `none`: it is fetched, and is ill-formed (R96). -/
def fetch (a : Word) (s : State) : Except Fault (Option Instr) :=
  if accessOk a 8 s then
    match decode (s.cells a 8) with
    | .ok i => .ok (some i)
    | .error .operandCount => .ok none
    | .error .noHead => .error (.fetch a)
    | .error .brokenTail => .error (.fetch a)
  else .error (.fetch a)

/-- `rip <- A +64 8` (10_state.md R26, R37). -/
def advanceRip (s : State) : State := s.setRip (s.rip + 8)

/-- What the model does around the instruction: `rip` moves past it (R26), and the free values of the next step are
other ones (R118: "fresh at each call"; log 10). -/
def enterInstr (s : State) : State := { advanceRip s with draws := s.draws + 1 }

/-- `F_ILLFORMED` of the instruction that is executing: it stands 8 bytes before `rip` (R26, R96). -/
def illFormedHere (s : State) : Fault := .illFormed (s.rip - 8)

/-- The well-formedness test of the step (R96, R130). -/
def admits (i : Instr) (s : State) : Bool := i.wellFormed s.config.rspOperand

end Sys2Proof.Machine
end

