-- ==== Sys2Proof/Machine/Flags.lean ====
section
/-! DEFINITION. The condition flags: how they are set, and the six condition codes that read them
(40_operands_and_condition_codes.md R116 to R125). -/

namespace Sys2Proof.Machine

/-- Whether an exact integer fits in a signed 64-bit value (10_state.md R28). -/
def fitsSigned (e : Int) : Bool := decide (-(2 ^ 63) ≤ e ∧ e ≤ 2 ^ 63 - 1)

/-- `ovf_add` (R117). -/
def ovfAdd (d s : Word) : Bool := !fitsSigned (d.toInt + s.toInt)

/-- `ovf_sub` (R117). -/
def ovfSub (d s : Word) : Bool := !fitsSigned (d.toInt - s.toInt)

/-- `ovf_mul` (R117). -/
def ovfMul (d s : Word) : Bool := !fitsSigned (d.toInt * s.toInt)

/-- `OF <- b`. -/
def setOF (b : Bool) (s : State) : State := { s with flags := { s.flags with of := some b } }

/-- `setSZ(r)` (R116): `SF <- r[63]`, `ZF <- (r = 0)`; `OF` is not touched. -/
def setSZ (r : Word) (s : State) : State :=
  { s with flags := { s.flags with sf := some r.msb, zf := some (r == 0) } }

/-- `SF <- a; ZF <- b`, for the two draws of `imulq` (R118, R143). -/
def setSZTo (a b : Bool) (s : State) : State := { s with flags := { s.flags with sf := some a, zf := some b } }

/-- `draw_bit()` (R118): the call numbered `k` of this step (log 10). -/
def drawBit (k : Nat) (s : State) : Bool := Config.freeBit s.draws k

/-- What a flag of a state holds. -/
def State.flag (s : State) : Flag → Option Bool
  | .of => s.flags.of
  | .sf => s.flags.sf
  | .zf => s.flags.zf

/-- Reading a flag (R119): `F_UNINIT` where it holds no value. -/
def readFlag (f : Flag) (s : State) : Except Fault Bool :=
  match s.flag f with
  | some b => .ok b
  | none => .error (.uninit (.flag f))

/-- `cond(eq)` = (`ZF = 1`) (R120). -/
def condEq (s : State) : Except Fault Bool := readFlag .zf s

/-- `cond(lt)` = (`SF != OF`) (R122). -/
def condLt (s : State) : Except Fault Bool := do
  let sf ← readFlag .sf s
  let ov ← readFlag .of s
  return sf != ov

/-- `cond(le)` = (`SF != OF` or `ZF = 1`) (R123); it needs all three flags (R119; the order of the reads is log 15). -/
def condLe (s : State) : Except Fault Bool := do
  let lt ← condLt s
  let zf ← readFlag .zf s
  return lt || zf

/-- `cond(cc)` (R120 to R125). -/
def condition (cc : CondCode) (s : State) : Except Fault Bool :=
  match cc with
  | .eq => condEq s
  | .neq => do
    let b ← condEq s
    return !b
  | .lt => condLt s
  | .le => condLe s
  | .gt => do
    let b ← condLe s
    return !b
  | .ge => do
    let b ← condLt s
    return !b

end Sys2Proof.Machine
end

