-- ==== Sys2Proof/Machine/Operands.lean ====
section
/-! DEFINITION. Operands as values, addresses and locations (40_operands_and_condition_codes.md R110 to R114), and the
shift amount (43_bit_manipulation.md R174).

Where the spec leaves a form undefined because the term is ill-formed (`addr` of an `Imm`, `store` to an `Imm` or to
`rip`), the operation raises the `F_ILLFORMED` that the step raises for that term (log 16). -/

namespace Sys2Proof.Machine

/-- `addr(op)` (R111): the effective address, modulo 2^64; no memory access. -/
def addr (op : Operand) (s : State) : Except Fault Word :=
  match op with
  | .ind1 d => .ok d
  | .ind2 r => readReg r s
  | .ind3 d r => do
    let b ← readReg r s
    return b + d
  | .imm _ => .error (illFormedHere s)
  | .reg _ => .error (illFormedHere s)

/-- `val(op)` (R110). -/
def val (op : Operand) (s : State) : Except Fault Word :=
  match op with
  | .imm i => .ok i
  | .reg r => readReg r s
  | .ind1 d => do
    let a ← addr (.ind1 d) s
    memRead a s
  | .ind2 r => do
    let a ← addr (.ind2 r) s
    memRead a s
  | .ind3 d r => do
    let a ← addr (.ind3 d r) s
    memRead a s

/-- `store(op, v)` (R114). -/
def store (op : Operand) (v : Word) (s : State) : Except Fault State :=
  match op with
  | .reg (.gpr r) => .ok (s.setGpr r v)
  | .ind1 d => do
    let a ← addr (.ind1 d) s
    memWrite a v s
  | .ind2 r => do
    let a ← addr (.ind2 r) s
    memWrite a v s
  | .ind3 d r => do
    let a ← addr (.ind3 d r) s
    memWrite a v s
  | .imm _ => .error (illFormedHere s)
  | .reg .rip => .error (illFormedHere s)

/-- Bits 63 to 8 of a quadword with another low byte: `v[63:8] ++ b` (R173). -/
def withLowByte (v : Word) (b : Byte) : Word := v.extractLsb' 8 56 ++ b

/-- The write of `setb` (R173): the low byte of a register, or the one byte of memory that is the
lower byte of the quadword at `addr(DEST)`: the byte at `addr(DEST)` itself under the default order. -/
def storeByte (op : Operand) (b : Byte) (s : State) : Except Fault State :=
  match op with
  | .reg (.gpr r) => do
    let v ← readGpr r s
    return s.setGpr r (withLowByte v b)
  | .ind1 d => do
    let a ← addr (.ind1 d) s
    memWriteByte (lowByteAddr a s) b s
  | .ind2 r => do
    let a ← addr (.ind2 r) s
    memWriteByte (lowByteAddr a s) b s
  | .ind3 d r => do
    let a ← addr (.ind3 d r) s
    memWriteByte (lowByteAddr a s) b s
  | .imm _ => .error (illFormedHere s)
  | .reg .rip => .error (illFormedHere s)

/-- The register of an operand that must be one: the `Reg` of `imulq`, the `DEST` of `leaq` (R143, R190). -/
def destGpr (op : Operand) (s : State) : Except Fault Gpr :=
  match op with
  | .reg (.gpr r) => .ok r
  | _ => .error (illFormedHere s)

/-- `val(AMT)`: `AMT` is an `Imm` or `rcx`, all 64 bits of it (R94, R174). -/
def amount (op : Operand) (s : State) : Except Fault Word :=
  if op.isAmount then val op s else .error (illFormedHere s)

/-- `n` from the amount `a` (R174): `a` itself up to 63; above, `ShiftRangePolicy` decides. Under `math` every amount
over 63 shifts as 64 does: all bits leave (log 17). -/
def shiftCount (a : Word) (s : State) : Except Fault Nat :=
  if a.toNat ≤ 63 then .ok a.toNat
  else
    match s.config.shiftRange with
    | .fault => .error (.shiftRange a)
    | .mask6 => .ok (a.toNat % 64)
    | .math => .ok 64

end Sys2Proof.Machine
end

