-- ==== Sys2Proof/Machine/Arithmetic.lean ====
section
/-! DEFINITION. Arithmetic instructions `negq addq subq imulq incq decq` (41_arithmetic.md). `rip` already holds the
address of the next instruction and is left there. Overflow never traps (R146). -/

namespace Sys2Proof.Machine

/-- R140: `DEST <- 0 -64 DEST`; `OF` is 1 exactly for `MIN_INT`. -/
def execNegq (dst : Operand) (s : State) : Host.Outcome State Fault Refusal :=
  outcome do
    let d ← val dst s
    let r := 0 - d
    let s ← store dst r s
    return setSZ r (setOF (d == minInt) s)

/-- R141: `DEST <- DEST +64 SRC`. -/
def execAddq (src dst : Operand) (s : State) : Host.Outcome State Fault Refusal :=
  outcome do
    let x ← val src s
    let d ← val dst s
    let r := d + x
    let s ← store dst r s
    return setSZ r (setOF (ovfAdd d x) s)

/-- R142: `DEST <- DEST -64 SRC`. -/
def execSubq (src dst : Operand) (s : State) : Host.Outcome State Fault Refusal :=
  outcome do
    let x ← val src s
    let d ← val dst s
    let r := d - x
    let s ← store dst r s
    return setSZ r (setOF (ovfSub d x) s)

/-- R143: `Reg <- Reg *64 SRC`; `OF` by the exact product; `SF` and `ZF` are free (R118, log 10). -/
def execImulq (src dst : Operand) (s : State) : Host.Outcome State Fault Refusal :=
  outcome do
    let r ← destGpr dst s
    let x ← val src s
    let d ← readGpr r s
    let s := s.setGpr r (d * x)
    return setSZTo (drawBit 0 s) (drawBit 1 s) (setOF (ovfMul d x) s)

/-- R144: `DEST <- DEST +64 1`, flags as `addq`. -/
def execIncq (dst : Operand) (s : State) : Host.Outcome State Fault Refusal :=
  outcome do
    let d ← val dst s
    let r := d + 1
    let s ← store dst r s
    return setSZ r (setOF (ovfAdd d 1) s)

/-- R145: `DEST <- DEST -64 1`, flags as `subq`. -/
def execDecq (dst : Operand) (s : State) : Host.Outcome State Fault Refusal :=
  outcome do
    let d ← val dst s
    let r := d - 1
    let s ← store dst r s
    return setSZ r (setOF (ovfSub d 1) s)

end Sys2Proof.Machine
end

