-- ==== Sys2Proof/Machine/BitManipulation.lean ====
section
/-! DEFINITION. Bit-manipulation instructions `sarq shlq shrq setb` (43_bit_manipulation.md). -/

namespace Sys2Proof.Machine

/-- The flags of a shift (R170 to R172): none for an amount of 0; otherwise `SF` and `ZF` from the result, and `OF`
only for an amount of 1. -/
def shiftFlags (n : Nat) (r : Word) (ofAtOne : Bool) (s : State) : State :=
  if n = 0 then s
  else if n = 1 then setOF ofAtOne (setSZ r s)
  else setSZ r s

/-- The shape the three shifts share: the amount, its range (R174), the operand, the write, the flags. `f d n` is the
result and `g d` the `OF` of a shift by 1. -/
def shiftOp (f : Word → Nat → Word) (g : Word → Bool) (amt dst : Operand) (s : State) : Except Fault State := do
  let a ← amount amt s
  let n ← shiftCount a s
  let d ← val dst s
  let r := f d n
  let s ← store dst r s
  return shiftFlags n r (g d) s

/-- R170: `DEST <- DEST >> AMT`, copies of the sign bit enter; `OF <- 0` for an amount of 1. -/
def execSarq (amt dst : Operand) (s : State) : Host.Outcome State Fault Refusal :=
  outcome (shiftOp (fun d n => d.sshiftRight n) (fun _ => false) amt dst s)

/-- R171: `DEST <- DEST << AMT`; for an amount of 1 `OF` says whether the top two bits of the old value differ. -/
def execShlq (amt dst : Operand) (s : State) : Host.Outcome State Fault Refusal :=
  outcome (shiftOp (fun d n => d <<< n) (fun d => d.getLsbD 63 != d.getLsbD 62) amt dst s)

/-- R172: `DEST <- DEST >>> AMT`, zeros enter; for an amount of 1 `OF` is the top bit of the old value. -/
def execShrq (amt dst : Operand) (s : State) : Host.Outcome State Fault Refusal :=
  outcome (shiftOp (fun d n => d >>> n) (fun d => d.getLsbD 63) amt dst s)

/-- `setb cc, DEST` (R173): the low byte of `DEST` becomes 1 if the condition holds, else 0. -/
def setbOp (cc : CondCode) (dst : Operand) (s : State) : Except Fault State := do
  let c ← condition cc s
  storeByte dst (if c then 1 else 0) s

/-- R173 with `eq`. -/
def execSetbEq (dst : Operand) (s : State) : Host.Outcome State Fault Refusal := outcome (setbOp .eq dst s)

/-- R173 with `neq`. -/
def execSetbNeq (dst : Operand) (s : State) : Host.Outcome State Fault Refusal := outcome (setbOp .neq dst s)

/-- R173 with `lt`. -/
def execSetbLt (dst : Operand) (s : State) : Host.Outcome State Fault Refusal := outcome (setbOp .lt dst s)

/-- R173 with `le`. -/
def execSetbLe (dst : Operand) (s : State) : Host.Outcome State Fault Refusal := outcome (setbOp .le dst s)

/-- R173 with `gt`. -/
def execSetbGt (dst : Operand) (s : State) : Host.Outcome State Fault Refusal := outcome (setbOp .gt dst s)

/-- R173 with `ge`. -/
def execSetbGe (dst : Operand) (s : State) : Host.Outcome State Fault Refusal := outcome (setbOp .ge dst s)

end Sys2Proof.Machine
end

