-- ==== Sys2Proof/Machine/DataMovement.lean ====
section
/-! DEFINITION. Data-movement instructions `leaq movq pushq popq` (44_data_movement.md). None writes a flag. The
statements run in the order written, each on the state the ones before it left (R115). -/

namespace Sys2Proof.Machine

/-- The first two statements of a push as `pushq` and `callq` share them: `x[rsp] <- x[rsp] -64 8` (R192, R212). -/
def decrementRsp (s : State) : Except Fault State := do
  let sp ← readGpr .rsp s
  return s.setGpr .rsp (sp - 8)

/-- The last statement of a pop: `x[rsp] <- x[rsp] +64 8` (R193, R213). -/
def incrementRsp (s : State) : Except Fault State := do
  let sp ← readGpr .rsp s
  return s.setGpr .rsp (sp + 8)

/-- `MemRead(x[rsp], 8)`: the top of the stack (R24). -/
def stackTop (s : State) : Except Fault Word := do
  let sp ← readGpr .rsp s
  memRead sp s

/-- `MemWrite(x[rsp], 8, v)`. -/
def setStackTop (v : Word) (s : State) : Except Fault State := do
  let sp ← readGpr .rsp s
  memWrite sp v s

/-- R190: `DEST <- addr(Ind)`; no memory is accessed. -/
def execLeaq (src dst : Operand) (s : State) : Host.Outcome State Fault Refusal :=
  outcome do
    let r ← destGpr dst s
    let a ← addr src s
    return s.setGpr r a

/-- R191: `DEST <- SRC`. -/
def execMovq (src dst : Operand) (s : State) : Host.Outcome State Fault Refusal :=
  outcome do
    let v ← val src s
    store dst v s

/-- R192: `rsp <- rsp -64 8; Mem[rsp] <- SRC`, `SRC` evaluated after the decrement. -/
def execPushq (src : Operand) (s : State) : Host.Outcome State Fault Refusal :=
  outcome do
    let s ← decrementRsp s
    let v ← val src s
    setStackTop v s

/-- R193: `DEST <- Mem[rsp]; rsp <- rsp +64 8`, an `Ind` `DEST` addressed before the increment. -/
def execPopq (dst : Operand) (s : State) : Host.Outcome State Fault Refusal :=
  outcome do
    let v ← stackTop s
    let s ← store dst v s
    incrementRsp s

end Sys2Proof.Machine
end

