-- ==== Sys2Proof/Machine/ControlFlow.lean ====
section
/-! DEFINITION. Control-flow and condition instructions `cmpq jmp callq retq j` (45_control_flow.md). `rip` already
holds the address of the next instruction; an instruction that does not assign it falls through. -/

namespace Sys2Proof.Machine

/-- R210: the flags of `SRC2 -64 SRC1`; nothing is stored. -/
def execCmpq (src1 src2 : Operand) (s : State) : Host.Outcome State Fault Refusal :=
  outcome do
    let x ← val src1 s
    let d ← val src2 s
    return setSZ (d - x) (setOF (ovfSub d x) s)

/-- `rip <- val(SRC)`: the target is absolute (R211). -/
def jumpTo (src : Operand) (s : State) : Except Fault State := do
  let t ← val src s
  return s.setRip t

/-- R211: `rip <- SRC`. -/
def execJmp (src : Operand) (s : State) : Host.Outcome State Fault Refusal :=
  outcome (jumpTo src s)

/-- R212: push `rip`, the address after the `callq`, then jump; `SRC` is evaluated after the push. -/
def execCallq (src : Operand) (s : State) : Host.Outcome State Fault Refusal :=
  outcome do
    let s ← decrementRsp s
    let s ← setStackTop s.rip s
    jumpTo src s

/-- R213: pop `rip`. -/
def execRetq (s : State) : Host.Outcome State Fault Refusal :=
  outcome do
    let t ← stackTop s
    incrementRsp (s.setRip t)

/-- `j cc, SRC` (R214): `SRC` is evaluated only when the condition holds. -/
def jOp (cc : CondCode) (src : Operand) (s : State) : Except Fault State := do
  let c ← condition cc s
  if c then jumpTo src s else return s

/-- R214 with `eq`. -/
def execJEq (src : Operand) (s : State) : Host.Outcome State Fault Refusal := outcome (jOp .eq src s)

/-- R214 with `neq`. -/
def execJNeq (src : Operand) (s : State) : Host.Outcome State Fault Refusal := outcome (jOp .neq src s)

/-- R214 with `lt`. -/
def execJLt (src : Operand) (s : State) : Host.Outcome State Fault Refusal := outcome (jOp .lt src s)

/-- R214 with `le`. -/
def execJLe (src : Operand) (s : State) : Host.Outcome State Fault Refusal := outcome (jOp .le src s)

/-- R214 with `gt`. -/
def execJGt (src : Operand) (s : State) : Host.Outcome State Fault Refusal := outcome (jOp .gt src s)

/-- R214 with `ge`. -/
def execJGe (src : Operand) (s : State) : Host.Outcome State Fault Refusal := outcome (jOp .ge src s)

end Sys2Proof.Machine
end

