-- ==== Sys2Proof/Machine/Logic.lean ====
section
/-! DEFINITION. Logic instructions `notq andq orq xorq` (42_logic.md). -/

namespace Sys2Proof.Machine

/-- R160: `DEST <- ~DEST`; no flag is written. -/
def execNotq (dst : Operand) (s : State) : Host.Outcome State Fault Refusal :=
  outcome do
    let d ← val dst s
    store dst (~~~d) s

/-- The shape `andq`, `orq` and `xorq` share (R161 to R163): read, combine, write, `OF <- 0`, `SF` and `ZF` from the
result. -/
def logicOp (f : Word → Word → Word) (src dst : Operand) (s : State) : Except Fault State := do
  let x ← val src s
  let d ← val dst s
  let r := f d x
  let s ← store dst r s
  return setSZ r (setOF false s)

/-- R161: `DEST <- DEST AND SRC`. -/
def execAndq (src dst : Operand) (s : State) : Host.Outcome State Fault Refusal :=
  outcome (logicOp (fun d x => d &&& x) src dst s)

/-- R162: `DEST <- DEST OR SRC`. -/
def execOrq (src dst : Operand) (s : State) : Host.Outcome State Fault Refusal :=
  outcome (logicOp (fun d x => d ||| x) src dst s)

/-- R163: `DEST <- DEST XOR SRC`. -/
def execXorq (src dst : Operand) (s : State) : Host.Outcome State Fault Refusal :=
  outcome (logicOp (fun d x => d ^^^ x) src dst s)

end Sys2Proof.Machine
end

