-- ==== Sys2Proof/Machine/Dispatch.lean ====
section
/-! DEFINITION. One arm per instruction. -/

namespace Sys2Proof.Machine

def exec (i : Instr) (s : State) : Host.Outcome State Fault Refusal :=
  match i with
  -- 41_arithmetic.md
  | .negq dst => Sys2Proof.Machine.execNegq dst s
  | .addq src dst => Sys2Proof.Machine.execAddq src dst s
  | .subq src dst => Sys2Proof.Machine.execSubq src dst s
  | .imulq src dst => Sys2Proof.Machine.execImulq src dst s
  | .incq dst => Sys2Proof.Machine.execIncq dst s
  | .decq dst => Sys2Proof.Machine.execDecq dst s
  -- 42_logic.md
  | .notq dst => Sys2Proof.Machine.execNotq dst s
  | .andq src dst => Sys2Proof.Machine.execAndq src dst s
  | .orq src dst => Sys2Proof.Machine.execOrq src dst s
  | .xorq src dst => Sys2Proof.Machine.execXorq src dst s
  -- 43_bit_manipulation.md
  | .sarq amt dst => Sys2Proof.Machine.execSarq amt dst s
  | .shlq amt dst => Sys2Proof.Machine.execShlq amt dst s
  | .shrq amt dst => Sys2Proof.Machine.execShrq amt dst s
  | .setbEq dst => Sys2Proof.Machine.execSetbEq dst s
  | .setbNeq dst => Sys2Proof.Machine.execSetbNeq dst s
  | .setbLt dst => Sys2Proof.Machine.execSetbLt dst s
  | .setbLe dst => Sys2Proof.Machine.execSetbLe dst s
  | .setbGt dst => Sys2Proof.Machine.execSetbGt dst s
  | .setbGe dst => Sys2Proof.Machine.execSetbGe dst s
  -- 44_data_movement.md
  | .leaq src dst => Sys2Proof.Machine.execLeaq src dst s
  | .movq src dst => Sys2Proof.Machine.execMovq src dst s
  | .pushq src => Sys2Proof.Machine.execPushq src s
  | .popq dst => Sys2Proof.Machine.execPopq dst s
  -- 45_control_flow.md
  | .cmpq src1 src2 => Sys2Proof.Machine.execCmpq src1 src2 s
  | .jmp src => Sys2Proof.Machine.execJmp src s
  | .callq src => Sys2Proof.Machine.execCallq src s
  | .retq => Sys2Proof.Machine.execRetq s
  | .jEq src => Sys2Proof.Machine.execJEq src s
  | .jNeq src => Sys2Proof.Machine.execJNeq src s
  | .jLt src => Sys2Proof.Machine.execJLt src s
  | .jLe src => Sys2Proof.Machine.execJLe src s
  | .jGt src => Sys2Proof.Machine.execJGt src s
  | .jGe src => Sys2Proof.Machine.execJGe src s

end Sys2Proof.Machine
end

