-- ==== Sys2Proof/Machine/Step.lean ====
section
/-! DEFINITION. One step of the machine (40_operands_and_condition_codes.md R130), and how the host's words and
instructions are placed for it. -/

namespace Sys2Proof.Machine

/-- One step (R130). At `HaltAddr` the run has ended and there is no step (R276); otherwise fetch, move `rip` past the
instruction, refuse an ill-formed term with `F_ILLFORMED` (R96), and run the instruction. -/
def step (s : State) : Host.Outcome State Fault Refusal :=
  if s.rip = s.haltAddr then .refused .runEnded
  else
    match fetch s.rip s with
    | .error f => .fault f
    | .ok none => .fault (.illFormed s.rip)
    | .ok (some i) =>
      if admits i (enterInstr s) then exec i (enterInstr s) else .fault (.illFormed s.rip)

/-- An instruction placed where the next step fetches: its eight cells at `rip` (R53, R274). This is what a launch does
for one instruction; a whole program is `layout` of Sys2Proof/Machine/Launch.lean. Cells past the top go on at address 0,
as there (log 28). -/
def State.withFetchInstr (s : State) (i : Instr) : State := s.setCells s.rip (encode i)

/-- The host's word placed where the next step fetches: eight `Byte` cells at `rip`. No bits are an instruction
(30_encoding.md R80, R82; `decodeTableWord` answers none for each), so the next step raises `F_FETCH` (log 2). -/
def State.withFetchWord (s : State) (nbits w : Nat) : State := s.setBytes s.rip (tableWordBytes nbits w)

end Sys2Proof.Machine
end

