-- ==== Sys2Proof/Assembly.lean ====
section
/-! DEFINITION. How an instruction is written in assembly (30_encoding.md R99 to R103). The machine never sees text;
this is the spec's own way of naming a term. -/

namespace Sys2Proof

/-- A register is written `%` and its name (R100). -/
def Gpr.name : Gpr → String
  | .rax => "rax" | .rbx => "rbx" | .rcx => "rcx" | .rdx => "rdx"
  | .rsi => "rsi" | .rdi => "rdi" | .rbp => "rbp" | .rsp => "rsp"
  | .r08 => "r08" | .r09 => "r09" | .r10 => "r10" | .r11 => "r11"
  | .r12 => "r12" | .r13 => "r13" | .r14 => "r14" | .r15 => "r15"

/-- `%` and the name, `%rip` among them (R100). -/
def Reg.asm : Reg → String
  | .gpr r => "%" ++ r.name
  | .rip => "%rip"

/-- The condition codes as R99 and R103 write them. -/
def CondCode.asm : CondCode → String
  | .eq => "eq" | .neq => "neq" | .lt => "lt" | .le => "le" | .gt => "gt" | .ge => "ge"

/-- A constant as an unsigned decimal number (log 20; the spec fixes no radix). -/
def constAsm (w : Word) : String := toString w.toNat

/-- An operand (R101); the `$` of an immediate is R102's, marked there as general knowledge (log 20). -/
def Operand.asm : Operand → String
  | .imm i => "$" ++ constAsm i
  | .reg r => r.asm
  | .ind1 d => constAsm d
  | .ind2 r => "(" ++ r.asm ++ ")"
  | .ind3 d r => constAsm d ++ "(" ++ r.asm ++ ")"

/-- The target of a jump or call (R102): a direct target bare, an indirect one with `*` (log 20). -/
def Operand.targetAsm : Operand → String
  | .imm i => constAsm i
  | op => "*" ++ op.asm

/-- The mnemonic, in lower case, and for `setb` and `j` the condition code that follows it (R99, R103). -/
def Opcode.asm : Opcode → String
  | .negq => "negq" | .addq => "addq" | .subq => "subq" | .imulq => "imulq" | .incq => "incq" | .decq => "decq"
  | .notq => "notq" | .andq => "andq" | .orq => "orq" | .xorq => "xorq"
  | .sarq => "sarq" | .shlq => "shlq" | .shrq => "shrq" | .setb cc => "setb " ++ cc.asm
  | .leaq => "leaq" | .movq => "movq" | .pushq => "pushq" | .popq => "popq"
  | .cmpq => "cmpq" | .jmp => "jmp" | .callq => "callq" | .retq => "retq" | .j cc => "j " ++ cc.asm

/-- Whether the operand of an opcode is a jump target (R102). -/
def Opcode.isJump : Opcode → Bool
  | .jmp | .callq | .j _ => true
  | _ => false

/-- What stands before the first operand: a comma after the condition code of `setb` and `j` (R103), else a blank. -/
def Opcode.separator : Opcode → String
  | .setb _ | .j _ => ", "
  | _ => " "

/-- An instruction: its mnemonic, then its operands separated by commas, source first (R99). -/
def Instr.asm (i : Instr) : String :=
  let ops := i.term.operands.map fun o => if i.term.op.isJump then o.targetAsm else o.asm
  match ops with
  | [] => i.term.op.asm
  | [a] => i.term.op.asm ++ i.term.op.separator ++ a
  | a :: rest => i.term.op.asm ++ i.term.op.separator ++ a ++ String.join (rest.map fun b => ", " ++ b)

end Sys2Proof
end

