-- ==== Sys2Proof/Machine/Launch.lean ====
section
/-! DEFINITION. The launch (70_reset_and_hazards.md R270 to R275), the layout of a program in memory and the value of a
label (30_encoding.md R89), and the check of a program that is built or loaded (R96). No step uses this file: it says
which states a run begins in. -/

namespace Sys2Proof.Machine

/-! ## Programs with labels (R89) -/

/-- A 64-bit constant of a program text: a literal, or "a symbolic label that is resolved ... to a 64-bit constant"
(R85). A label's name is a number here. -/
inductive Const where
  | lit (w : Word)
  | label (name : Nat)
  deriving DecidableEq, Repr

/-- An operand of a program text: an operand of R81 whose constants may be labels. -/
inductive TextOperand where
  | imm (i : Const)
  | reg (r : Reg)
  | ind1 (d : Const)
  | ind2 (r : Reg)
  | ind3 (d : Const) (r : Reg)
  deriving DecidableEq, Repr

/-- One line of a program text: a label, or an instruction's term before its labels are resolved. -/
inductive Line where
  | label (name : Nat)
  | instr (op : Opcode) (operands : List TextOperand)
  deriving DecidableEq, Repr

/-- The label values of a program whose first instruction stands at `a`: a label has the address of the instruction it
precedes, and each instruction takes 8 bytes (R89). DESIGN CHOICE (log 25; safe for the machine, unsafe
for a claim about what such a text assembles to): a label after the last of n instructions precedes none, R89 gives it
no value, and it has `Base +64 8n` here. -/
def labelValues (a : Word) : List Line → List (Nat × Word)
  | [] => []
  | .label n :: ls => (n, a) :: labelValues a ls
  | .instr _ _ :: ls => labelValues (a + 8) ls

/-- The value of a constant, `none` for a label that nothing defines: "every label was resolved to its address before
launch" (70_reset_and_hazards.md R277). -/
def Const.resolve (labels : List (Nat × Word)) : Const → Option Word
  | .lit w => some w
  | .label n => labels.lookup n

/-- An operand with its labels replaced (R89). -/
def TextOperand.resolve (labels : List (Nat × Word)) : TextOperand → Option Operand
  | .imm i => (i.resolve labels).map .imm
  | .reg r => some (.reg r)
  | .ind1 d => (d.resolve labels).map .ind1
  | .ind2 r => some (.ind2 r)
  | .ind3 d r => (d.resolve labels).map fun d => .ind3 d r

/-- A list of operands with their labels replaced. -/
def resolveOperands (labels : List (Nat × Word)) : List TextOperand → Option (List Operand)
  | [] => some []
  | o :: os => do
    let o ← o.resolve labels
    let os ← resolveOperands labels os
    return o :: os

/-- The terms of a program, in order, its labels replaced. Labels of the launch's data may be given as `labels`. -/
def resolveLines (labels : List (Nat × Word)) : List Line → Option (List Term)
  | [] => some []
  | .label _ :: ls => resolveLines labels ls
  | .instr op os :: ls => do
    let os ← resolveOperands labels os
    let ts ← resolveLines labels ls
    return ⟨op, os⟩ :: ts

/-- The program's terms when it is laid out from `base`; `data` gives the values of data labels (D18). DESIGN CHOICE
(log 24; safe for the machine, unsafe for a claim about what such a text assembles to): R89 and R277 do not say what a label defined twice is; here the first definition counts, those of the
text before those of `data`. -/
def assemble (base : Word) (data : List (Nat × Word)) (text : List Line) : Option (List Term) :=
  resolveLines (labelValues base text ++ data) text

/-! ## The check of a program that is built or loaded (R96) -/

/-- Why a program is refused before it runs. -/
inductive ProgramError where
  /-- A label that nothing defines (70_reset_and_hazards.md R277). -/
  | undefinedLabel
  /-- The k-th instruction, from 0, is an ill-formed term (R96). -/
  | illFormedLine (k : Nat)
  /-- The instruction cell at this address holds an ill-formed term (R96). -/
  | illFormedCell (a : Nat)
  deriving DecidableEq, Repr

/-- The first ill-formed term of a program, the first of the list being the k-th. -/
def firstIllFormedLine (p : RspOperandPolicy) (k : Nat) : List Term → Option Nat
  | [] => none
  | t :: ts => if t.wellFormed p then firstIllFormedLine p (k + 1) ts else some k

/-- A program is built: its labels are resolved, and an ill-formed term is refused (R96). -/
def build (p : RspOperandPolicy) (base : Word) (data : List (Nat × Word)) (text : List Line) :
    Except ProgramError (List Term) :=
  match assemble base data text with
  | none => .error .undefinedLabel
  | some ts =>
    match firstIllFormedLine p 0 ts with
    | some k => .error (.illFormedLine k)
    | none => .ok ts

/-- The first address of a memory whose instruction cell holds an ill-formed term. -/
def firstIllFormedCell (p : RspOperandPolicy) : Memory → Option Nat
  | [] => none
  | (a, .insHead t) :: m => if t.wellFormed p then firstIllFormedCell p m else some a
  | (_, .insTail) :: m => firstIllFormedCell p m
  | (_, .byte _) :: m => firstIllFormedCell p m

/-! ## Layout (R89, R274) -/

/-- The eight cells of a term (20_memory.md R53). -/
def termCells (t : Term) : List MemCell := .insHead t :: List.replicate 7 .insTail

/-- A program in memory: "the k-th instruction (k from 0) stands at `Base +64 8k`" (R89). DESIGN CHOICE (log 28, unsafe
for such a program): R89 does not say where the cells go of an instruction whose eight pass the top of memory, where none
can stand by 20_memory.md R53; here they go on at address 0, under either `TopWrapPolicy`. -/
def Memory.layout (m : Memory) (base : Word) (ts : List Term) : Memory :=
  match ts with
  | [] => m
  | t :: ts => Memory.layout (m.setCells base (termCells t)) (base + 8) ts

/-! ## The launch -/

/-- The launch parameters (R270, 00_scope.md R5). A register or flag of `regs0`, `flags0` that is `none`, and a cell
that `mem0` does not list, holds no value (R273, R274). `mem0` holds the program and its data. -/
structure Launch where
  entry : Word
  rsp0 : Word
  regs0 : RegFile
  flags0 : Flags
  mem0 : Memory
  haltAddr : Word
  config : Config
  deriving DecidableEq, Repr

/-- The registers of a launch that gives none (R273). -/
def RegFile.noValues : RegFile :=
  { rax := none, rbx := none, rcx := none, rdx := none, rsi := none, rdi := none, rbp := none, rsp := none,
    r08 := none, r09 := none, r10 := none, r11 := none, r12 := none, r13 := none, r14 := none, r15 := none }

/-- The flags of a launch that gives none (R273). -/
def Flags.noValues : Flags := { of := none, sf := none, zf := none }

/-- The first state of a run (R270 to R275): `rip` is `Entry`, `rsp` is `Rsp0`, and `HaltAddr` stands as a quadword at
`Rsp0` (R275, in the byte order of the launch). DESIGN CHOICE (log 26, unsafe): the launch owes
`uval(Rsp0) + 8 <= 2^64` (R277); where it does not hold, the bytes go on at address 0, under either `TopWrapPolicy`. A
launch that wants other bytes there is this state with those bytes set by
`State.setBytes`. "Nothing happens between the launch and the first step." -/
def Launch.start (l : Launch) : State :=
  { regs := l.regs0.set .rsp l.rsp0
    rip := l.entry
    flags := l.flags0
    mem := l.mem0.setCells l.rsp0 ((quadBytes l.config.byteOrder l.haltAddr).map .byte)
    haltAddr := l.haltAddr
    config := l.config
    draws := 0 }

/-- A launch that is checked: a program with an ill-formed term is refused when it is loaded, "so that the machine meets
only well-formed terms" (30_encoding.md R96). `start` is the same launch unchecked, whose run meets the fault of R96
instead. -/
def Launch.load (l : Launch) : Except ProgramError State :=
  match firstIllFormedCell l.config.rspOperand l.mem0 with
  | some a => .error (.illFormedCell a)
  | none => .ok l.start

end Sys2Proof.Machine
end

