-- ==== Sys2Proof/Safety.lean ====
section
/-! DEFINITION. What counts as a run that ends, faults or goes on (70_reset_and_hazards.md R276, R282;
60_exceptions.md R240), and the vocabulary of the statements: what an operand needs to be read or written, and what a
step leaves unchanged. -/

namespace Sys2Proof.Machine

/-! ## Runs -/

/-- The run has ended in this state: "at the start of a step, `x[rip] = HaltAddr`" (R276). -/
def State.ended (s : State) : Prop := s.rip = s.haltAddr

/-- `t` is reached from `s` by some number of steps, each with a next state. -/
inductive Reaches (s : State) : State → Prop where
  | refl : Reaches s s
  | tail {t u : State} : Reaches s t → step t = .next u → Reaches s u

/-- `t` is the final state of the run from `s` (R276). -/
def FinalState (s t : State) : Prop := Reaches s t ∧ t.ended

/-- The run from `s` raises the fault `f`; it has no final state (R240). -/
def FaultsWith (s : State) (f : Fault) : Prop := ∃ t, Reaches s t ∧ step t = .fault f

/-- A safe run: no step of it faults. It ends, or it goes on for ever (R276, R282). -/
def SafeRun (s : State) : Prop := ∀ t, Reaches s t → ∀ f, step t ≠ .fault f

/-! ## What holds a value -/

/-- Every general register and every flag holds a value. True after reset; a launch may leave some out (R273). -/
def State.allValued (s : State) : Prop :=
  (∀ r, (s.gpr r).isSome) ∧ (∀ f, (s.flag f).isSome)

/-! ## Readable and writable operands, from the cells and registers alone -/

/-- A register name that may be read: `rip`, or a register that holds a value (R113). -/
def regReadable (r : Reg) (s : State) : Prop :=
  match r with
  | .gpr g => (s.gpr g).isSome
  | .rip => True

/-- The value of a readable register name. -/
def regValue (r : Reg) (s : State) : Word :=
  match r with
  | .gpr g => (s.gpr g).getD 0
  | .rip => s.rip

/-- The base register of an `Ind` operand, where there is one, holds a value; false of `Imm` and `Reg`. -/
def baseReadable (op : Operand) (s : State) : Prop :=
  match op with
  | .imm _ => False
  | .reg _ => False
  | .ind1 _ => True
  | .ind2 r => regReadable r s
  | .ind3 _ r => regReadable r s

/-- `base + disp` of an `Ind` operand, absent parts being 0 (R111). -/
def effectiveAddress (op : Operand) (s : State) : Word :=
  match op with
  | .imm _ => 0
  | .reg _ => 0
  | .ind1 d => d
  | .ind2 r => regValue r s
  | .ind3 d r => regValue r s + d

/-- An access of `n` bytes at `a` may be made: below the top, or `TopWrapPolicy = wrap` (R60). -/
def accessible (a : Word) (n : Nat) (s : State) : Prop :=
  a.toNat + n ≤ 2 ^ 64 ∨ s.config.topWrap = .wrap

/-- A cell that a data read takes a byte from (R56, R61). -/
def cellReadable (a : Word) (s : State) : Prop :=
  (∃ b, s.cell a = some (.byte b)) ∨
    (s.config.codeRead = .anyValue ∧ ((∃ t, s.cell a = some (.insHead t)) ∨ s.cell a = some .insTail))

/-- The quadword at `a` may be read (R56). -/
def quadReadable (a : Word) (s : State) : Prop :=
  accessible a 8 s ∧ ∀ k < 8, cellReadable (a + BitVec.ofNat 64 k) s

/-- The operand has a value (R110). -/
def Readable (op : Operand) (s : State) : Prop :=
  match op with
  | .imm _ => True
  | .reg r => regReadable r s
  | .ind1 _ => quadReadable (effectiveAddress op s) s
  | .ind2 _ => baseReadable op s ∧ quadReadable (effectiveAddress op s) s
  | .ind3 _ _ => baseReadable op s ∧ quadReadable (effectiveAddress op s) s

/-- The operand is a location that a write of `n` bytes reaches (R112, R114). -/
def Writable (op : Operand) (n : Nat) (s : State) : Prop :=
  match op with
  | .imm _ => False
  | .reg .rip => False
  | .reg (.gpr _) => True
  | .ind1 _ => accessible (effectiveAddress op s) n s
  | .ind2 _ => baseReadable op s ∧ accessible (effectiveAddress op s) n s
  | .ind3 _ _ => baseReadable op s ∧ accessible (effectiveAddress op s) n s

/-- The flags a condition code needs hold values (R119). -/
def condReadable (cc : CondCode) (s : State) : Prop :=
  match cc with
  | .eq | .neq => s.flags.zf.isSome
  | .lt | .ge => s.flags.sf.isSome ∧ s.flags.of.isSome
  | .le | .gt => s.flags.sf.isSome ∧ s.flags.of.isSome ∧ s.flags.zf.isSome

/-- The instruction an address holds: `InsHead` of its term and seven `InsTail`, all inside memory (R53; R60 for
`wrap`). -/
def StandsAt (i : Instr) (a : Word) (s : State) : Prop :=
  accessible a 8 s ∧ s.cell a = some (.insHead i.term) ∧
    ∀ k, 1 ≤ k → k < 8 → s.cell (a + BitVec.ofNat 64 k) = some .insTail

/-! ## What is left unchanged -/

/-- Every general register but those listed is unchanged. -/
def GprsSameBut (rs : List Gpr) (s t : State) : Prop := ∀ r, r ∉ rs → t.gpr r = s.gpr r

/-- Every cell of memory reads as before. -/
def MemSame (s t : State) : Prop := ∀ x, t.cell x = s.cell x

/-- The `n` bytes from `a` upward, modulo 2^64 (R59). -/
def inBytes (a : Word) (n : Nat) (x : Word) : Prop := ∃ k < n, x = a + BitVec.ofNat 64 k

/-- Every cell outside the `n` bytes from `a` reads as before. -/
def MemSameOutside (a : Word) (n : Nat) (s t : State) : Prop := ∀ x, ¬ inBytes a n x → t.cell x = s.cell x

/-- The model's own fields are unchanged. -/
def OwnSame (s t : State) : Prop := t.haltAddr = s.haltAddr ∧ t.config = s.config ∧ t.draws = s.draws

/-- The general register an operand names as a location. -/
def destGprs : Operand → List Gpr
  | .reg (.gpr r) => [r]
  | _ => []

/-- What an instruction whose one destination is `dst` leaves unchanged, a memory destination being `n` bytes at
`addr(dst)` of the state it starts in: every register but a register destination; `rip`; all of memory for a register
destination, and every byte outside the stored ones for a memory destination. -/
def DestFrame (dst : Operand) (n : Nat) (s t : State) : Prop :=
  GprsSameBut (destGprs dst) s t ∧ t.rip = s.rip ∧ OwnSame s t ∧
    (dst.isInd = false → MemSame s t) ∧
    (∀ a, addr dst s = .ok a → MemSameOutside a n s t)

/-- What `setb` leaves unchanged (R173): as `DestFrame`, a memory destination being the lower byte of the quadword at
`addr(dst)`, which is the byte at `addr(dst)` under the default byte order. -/
def LowByteFrame (dst : Operand) (s t : State) : Prop :=
  GprsSameBut (destGprs dst) s t ∧ t.rip = s.rip ∧ OwnSame s t ∧
    (dst.isInd = false → MemSame s t) ∧
    (∀ a, addr dst s = .ok a → MemSameOutside (lowByteAddr a s) 1 s t)

/-- An exact integer result does not fit in a signed 64-bit value: it is "outside [-2^63, 2^63 - 1]" (R117). -/
def outside64 (e : Int) : Bool := decide (e < -(2 ^ 63) ∨ 2 ^ 63 - 1 < e)

/-- A location: a register other than `rip`, or an `Ind` ("loc" of 30_encoding.md R91). -/
def IsLoc (op : Operand) : Prop := (∃ r, op = .reg (.gpr r)) ∨ op.isInd = true

/-- The flags of an arithmetic or logic result: `OF` as given, `SF` and `ZF` from the result (R116). -/
def flagsOf (ov : Bool) (r : Word) : Flags := { of := some ov, sf := some r.msb, zf := some (r == 0) }

/-- The state with other flags. -/
def State.withFlags (s : State) (f : Flags) : State := { s with flags := f }

/-! ## The shape of a result: the faults in order, and the next state -/

/-- The result of an instruction with one operand that is read and written (R140, R144, R145, R160): its faults in
order, and the next state for a readable, writable operand. `res d` is the new value, `fl d old` the new flags. -/
def UnaryResult (mk : Operand → Instr) (res : Word → Word) (fl : Word → Flags → Flags) : Prop :=
  ∀ (dst : Operand) (s : State),
    (∀ f, val dst s = .error f → exec (mk dst) s = .fault f) ∧
    (∀ d, val dst s = .ok d →
      (∀ f, store dst (res d) s = .error f → exec (mk dst) s = .fault f) ∧
      (Writable dst 8 s → ∃ u, store dst (res d) s = .ok u ∧
        exec (mk dst) s = .next (u.withFlags (fl d s.flags))))

/-- The result of an instruction that reads `SRC` and `DEST` and writes `DEST` (R141, R142, R161 to R163): its faults
in order (`SRC` first), and the next state for a readable `SRC` and a readable, writable `DEST`. -/
def BinaryResult (mk : Operand → Operand → Instr) (res : Word → Word → Word)
    (fl : Word → Word → Flags) : Prop :=
  ∀ (src dst : Operand) (s : State),
    (∀ f, val src s = .error f → exec (mk src dst) s = .fault f) ∧
    (∀ x, val src s = .ok x →
      (∀ f, val dst s = .error f → exec (mk src dst) s = .fault f) ∧
      (∀ d, val dst s = .ok d →
        (∀ f, store dst (res d x) s = .error f → exec (mk src dst) s = .fault f) ∧
        (Writable dst 8 s → ∃ u, store dst (res d x) s = .ok u ∧
          exec (mk src dst) s = .next (u.withFlags (fl d x)))))

/-- The amount `n` that a shift by `a` shifts by, where it does not fault (R174): `a` as an unsigned number up to 63,
and above 63 its value modulo 64 under `mask6`, itself under `math`. -/
def shiftsBy (a : Word) (n : Nat) (s : State) : Prop :=
  (a.toNat ≤ 63 ∧ n = a.toNat) ∨ (63 < a.toNat ∧ s.config.shiftRange = .mask6 ∧ n = a.toNat % 64) ∨
    (63 < a.toNat ∧ s.config.shiftRange = .math ∧ n = a.toNat)

/-- The result of a shift (R170 to R172): its faults in order (`AMT`, the range under the default policy, `DEST`), and
the next state for every amount `n` that `ShiftRangePolicy` leaves. `res d n` is the result, `ofAtOne d` the `OF` of a
shift by 1. -/
def ShiftResult (mk : Operand → Operand → Instr) (res : Word → Nat → Word) (ofAtOne : Word → Bool) :
    Prop :=
  ∀ (amt dst : Operand) (s : State), amt.isAmount = true →
    (∀ f, val amt s = .error f → exec (mk amt dst) s = .fault f) ∧
    (∀ a, val amt s = .ok a →
      (63 < a.toNat → s.config.shiftRange = .fault → exec (mk amt dst) s = .fault (.shiftRange a)) ∧
      (∀ n, shiftsBy a n s →
        (∀ f, val dst s = .error f → exec (mk amt dst) s = .fault f) ∧
        (∀ d, val dst s = .ok d →
          (∀ f, store dst (res d n) s = .error f → exec (mk amt dst) s = .fault f) ∧
          (Writable dst 8 s → ∃ u, store dst (res d n) s = .ok u ∧
            exec (mk amt dst) s = .next (u.withFlags
              (if n = 0 then s.flags
               else { of := if n = 1 then some (ofAtOne d) else s.flags.of
                      sf := some (res d n).msb
                      zf := some (res d n == 0) }))))))

end Sys2Proof.Machine
end

