-- ==== Sys2Proof/Certificates/Slice0/Obligations.lean ====
section
/-! DEFINITION. The statements for the provers. Each docstring says which rule of the spec it formalises. `s` ranges
over every state, reachable or not. In a statement about `exec`, `s.rip` is already the address after the instruction
(10_state.md R26). The vocabulary is Sys2Proof/Safety.lean. -/

open Sys2Proof Sys2Proof.Machine

/-! ## Fetching and decoding -/

/-- 20_memory.md R53, R58: an instruction whose eight cells are placed at any address, over whatever was there, is
what a fetch there returns. The address is one whose eight bytes are inside memory, or, under `TopWrapPolicy = wrap`, any:
that an instruction may then stand across the top is the model's reading of R60 (log 19, DEDUCED). -/
def Obligations.PlacedInstructionIsFetched : Prop :=
  ∀ (i : Instr) (a : Word) (s : State), accessible a 8 s →
    StandsAt i a (s.setCells a (encode i)) ∧ fetch a (s.setCells a (encode i)) = .ok (some i)

/-- 20_memory.md R58: `Fetch(a)` returns an instruction exactly where one stands; where the term that stands there
has the wrong operand count it returns no instruction (R91; the model's reading, log 21); everywhere else it raises
`F_FETCH(a)`, and that is the step's fault (60_exceptions.md R242). One that would cross the top stands nowhere, but under
`TopWrapPolicy = wrap` it may: the model's reading of R60 (log 19, DEDUCED). -/
def Obligations.FetchReturnsExactlyWhatStands : Prop :=
  ∀ (a : Word) (s : State),
    (∀ i, fetch a s = .ok (some i) ↔ StandsAt i a s) ∧
    (fetch a s = .ok none ↔
      accessible a 8 s ∧ (∃ t, s.cell a = some (.insHead t) ∧ t.operands.length ≠ t.op.arity) ∧
        ∀ k, 1 ≤ k → k < 8 → s.cell (a + BitVec.ofNat 64 k) = some .insTail) ∧
    (∀ f, fetch a s = .error f ↔
      f = .fetch a ∧ ¬ (accessible a 8 s ∧ (∃ t, s.cell a = some (.insHead t)) ∧
        ∀ k, 1 ≤ k → k < 8 → s.cell (a + BitVec.ofNat 64 k) = some .insTail)) ∧
    (∀ f, s.rip ≠ s.haltAddr → fetch s.rip s = .error f → step s = .fault f)

/-- 20_memory.md R53: each list of cells is the instruction of at most one term, and every other list is refused. -/
def Obligations.DecodeAcceptsOnlyEncodedInstructions : Prop :=
  ∀ (cs : List (Option MemCell)) (i : Instr), decode cs = .ok i ↔ cs = (encode i).map some

/-- 30_encoding.md R81, R90 and 95_test_vectors.md Part 1 and P3: a few terms written out from the spec decode to the
instructions they stand for, in source order (SRC first). -/
def Obligations.WrittenOutTermsDecode : Prop :=
  decode (some (.insHead ⟨.movq, [.reg (.gpr .rbx), .ind3 8 (.gpr .rax)]⟩) :: tailCells)
      = .ok (.movq (.reg (.gpr .rbx)) (.ind3 8 (.gpr .rax))) ∧
    decode (some (.insHead ⟨.subq, [.imm 3, .reg (.gpr .rax)]⟩) :: tailCells)
      = .ok (.subq (.imm 3) (.reg (.gpr .rax))) ∧
    decode (some (.insHead ⟨.setb .lt, [.ind1 0x600001]⟩) :: tailCells) = .ok (.setbLt (.ind1 0x600001)) ∧
    decode (some (.insHead ⟨.j .neq, [.imm 0x400018]⟩) :: tailCells) = .ok (.jNeq (.imm 0x400018)) ∧
    decode (some (.insHead ⟨.retq, []⟩) :: tailCells) = .ok .retq

/-- 30_encoding.md R91 to R95: well-formedness is the table of R91, row by row. Derived: the table is the spec's own
decision D22, that `rip` is not written its decision D8 (R95). Under `RspOperandPolicy = refuse` (its decision D10,
log 13) `pushq`, `callq` and `popq` of `Reg(rsp)`, `Ind2(rsp)`, `Ind3(d, rsp)` are ill-formed too, and nothing else is. -/
def Obligations.WellFormedIsTheOperandTable : Prop :=
  ∀ (x y : Operand),
    (∀ i ∈ [Instr.negq x, .incq x, .decq x, .notq x, .popq x], i.wellFormed .literal = true ↔ IsLoc x) ∧
    (∀ cc, (Instr.setb cc x).wellFormed .literal = true ↔ IsLoc x) ∧
    (∀ i ∈ [Instr.addq x y, .subq x y, .andq x y, .orq x y, .xorq x y, .movq x y],
      i.wellFormed .literal = true ↔ IsLoc y ∧ ¬ (x.isInd = true ∧ y.isInd = true)) ∧
    ((Instr.imulq x y).wellFormed .literal = true ↔ ∃ r, y = .reg (.gpr r)) ∧
    (∀ i ∈ [Instr.sarq x y, .shlq x y, .shrq x y],
      i.wellFormed .literal = true ↔ ((∃ n, x = .imm n) ∨ x = .reg (.gpr .rcx)) ∧ IsLoc y) ∧
    ((Instr.leaq x y).wellFormed .literal = true ↔ x.isInd = true ∧ ∃ r, y = .reg (.gpr r)) ∧
    ((Instr.cmpq x y).wellFormed .literal = true ↔ ¬ (x.isInd = true ∧ y.isInd = true)) ∧
    (∀ i ∈ [Instr.pushq x, .jmp x, .callq x, .retq], i.wellFormed .literal = true) ∧
    (∀ cc, (Instr.j cc x).wellFormed .literal = true) ∧
    (∀ i : Instr, i.wellFormed .refuse = true ↔
      i.wellFormed .literal = true ∧
        ∀ op, (i = .pushq op ∨ i = .callq op ∨ i = .popq op) →
          op ≠ .reg (.gpr .rsp) ∧ op ≠ .ind2 (.gpr .rsp) ∧ ∀ d, op ≠ .ind3 d (.gpr .rsp))

/-! ## The step -/

/-- 40_operands_and_condition_codes.md R130, 10_state.md R26: where a well-formed instruction stands at `rip`, and
`rip` is not `HaltAddr`, the step is the instruction run with `rip` 8 further and everything else as it was (but for
the model's draw number, which is the next one). That one standing across the top is run too, under
`TopWrapPolicy = wrap`, is the model's reading of R60 (log 19, DEDUCED). -/
def Obligations.StepRunsTheDecodedInstruction : Prop :=
  ∀ (i : Instr) (s : State), s.rip ≠ s.haltAddr → StandsAt i s.rip s → i.wellFormed s.config.rspOperand = true →
    step s = exec i (enterInstr s) ∧ (enterInstr s).rip = s.rip + 8 ∧
      (enterInstr s).regs = s.regs ∧ (enterInstr s).flags = s.flags ∧ (enterInstr s).mem = s.mem ∧
      (enterInstr s).haltAddr = s.haltAddr ∧ (enterInstr s).config = s.config ∧
      (enterInstr s).draws = s.draws + 1

/-- 30_encoding.md R96: executing an ill-formed term raises `F_ILLFORMED` of its address, be it a term of the wrong
operand count or an instruction that a check of R91 to R95 refuses. And such a term is refused when a program is built
(`build`) or loaded (`Launch.load`), exactly there, so that no step of a run from a loaded launch meets one. That a term across the top is fetched under
`TopWrapPolicy = wrap` is the model's reading of R60 (log 19, DEDUCED). -/
def Obligations.IllFormedTermFaults : Prop :=
  (∀ (t : Term) (s : State), s.rip ≠ s.haltAddr → accessible s.rip 8 s → s.cell s.rip = some (.insHead t) →
    (∀ k, 1 ≤ k → k < 8 → s.cell (s.rip + BitVec.ofNat 64 k) = some .insTail) →
    (t.operands.length ≠ t.op.arity ∨ ∃ i : Instr, i.term = t ∧ i.wellFormed s.config.rspOperand = false) →
    step s = .fault (.illFormed s.rip)) ∧
  (∀ (p : RspOperandPolicy) (base : Word) (data : List (Nat × Word)) (text : List Line) (ts : List Term),
    build p base data text = .ok ts ↔ assemble base data text = some ts ∧
      ∀ t ∈ ts, ∃ i : Instr, i.term = t ∧ i.wellFormed p = true) ∧
  (∀ (l : Launch) (s : State), l.load = .ok s ↔ s = l.start ∧
    ∀ a t, (a, MemCell.insHead t) ∈ l.mem0 → ∃ i : Instr, i.term = t ∧ i.wellFormed l.config.rspOperand = true) ∧
  (∀ (l : Launch) (s u : State), l.load = .ok s → Reaches s u → ∀ a, step u ≠ .fault (.illFormed a))

/-- 70_reset_and_hazards.md R276: at `HaltAddr` the run has ended, and there is no step; no other state ends so. That
the end is the refusal `runEnded` is the model's choice (log 9). -/
def Obligations.RunEndsExactlyAtHaltAddr : Prop :=
  ∀ s : State, (s.rip = s.haltAddr → step s = .refused .runEnded) ∧
    (∀ r, step s = .refused r → s.rip = s.haltAddr ∧ r = .runEnded)

/-- 20_memory.md R70, R57: a write of a quadword, or of a byte, that lands on any byte of an instruction destroys it:
a fetch of it raises `F_FETCH`. -/
def Obligations.OverwrittenInstructionIsGone : Prop :=
  ∀ (a x v : Word) (b : Byte) (s t : State),
    (memWrite x v s = .ok t → (∃ y, inBytes a 8 y ∧ inBytes x 8 y) → fetch a t = .error (.fetch a)) ∧
    (memWriteByte x b s = .ok t → inBytes a 8 x → fetch a t = .error (.fetch a))

/-! ## Registers, memory, operands -/

/-- 40_operands_and_condition_codes.md R113: a register read returns what the register holds, or raises `F_UNINIT` of
that register; `x[rip]` always has a value. Derived: that a register may hold no value, and that its read then faults, is
the spec's own decision D16 (R113; log 7). -/
def Obligations.RegisterReadReturnsItsContents : Prop :=
  ∀ (r : Gpr) (s : State),
    (∀ v, s.gpr r = some v → readReg (.gpr r) s = .ok v) ∧
    (s.gpr r = none → readReg (.gpr r) s = .error (.uninit (.reg r))) ∧
    readReg .rip s = .ok s.rip

/-- 40_operands_and_condition_codes.md R111: the effective address is `base + disp` modulo 2^64, a missing part being
0; a base that holds no value faults; `addr` answers for neither `Imm` nor `Reg`. -/
def Obligations.EffectiveAddressIsBasePlusDisplacement : Prop :=
  ∀ (d : Word) (r : Reg) (s : State),
    addr (.ind1 d) s = .ok d ∧
    (∀ b, readReg r s = .ok b → addr (.ind2 r) s = .ok b ∧
      addr (.ind3 d r) s = .ok (BitVec.ofNat 64 (b.toNat + d.toNat))) ∧
    (∀ f, readReg r s = .error f → addr (.ind2 r) s = .error f ∧ addr (.ind3 d r) s = .error f) ∧
    (∀ i a, addr (.imm i) s ≠ .ok a) ∧ (∀ a, addr (.reg r) s ≠ .ok a)

/-- 40_operands_and_condition_codes.md R110: the value of an operand of each of the five kinds. -/
def Obligations.OperandValueByKind : Prop :=
  ∀ (i d : Word) (r : Reg) (op : Operand) (s : State),
    val (.imm i) s = .ok i ∧ val (.reg r) s = readReg r s ∧
    (op.isInd = true →
      (∀ a, addr op s = .ok a → val op s = memRead a s) ∧ (∀ f, addr op s = .error f → val op s = .error f)) ∧
    val (.ind1 d) s = memRead d s

/-- 20_memory.md R54, R56, 60_exceptions.md R248: a quadword read takes its byte k, bits 8k+7 to 8k, from address
a + k (`byteIndex`; from a + 7 - k under the big-endian setting of `ByteOrder`: D2, log 12), at any alignment. The range is tested first, then the cells from the lowest; the first cell that holds no value, or an
instruction under `CodeReadPolicy = fault`, names the fault. A byte read reads one cell. -/
def Obligations.MemoryReadByteByByte : Prop :=
  ∀ (a : Word) (s : State),
    (∀ v : Word, accessible a 8 s →
      (∀ k < 8, s.cell (a + BitVec.ofNat 64 (byteIndex s.config.byteOrder k)) =
        some (.byte (v.extractLsb' (8 * k) 8))) → memRead a s = .ok v) ∧
    (∀ r b, s.cell a = some (.byte b) → memReadByte r a s = .ok b) ∧
    (¬ accessible a 8 s → memRead a s = .error (.addrWrap a)) ∧
    (accessible a 8 s → ∀ k < 8, (∀ j < k, cellReadable (a + BitVec.ofNat 64 j) s) →
      (s.cell (a + BitVec.ofNat 64 k) = none → memRead a s = .error (.uninit (.cell (a + BitVec.ofNat 64 k)))) ∧
      (s.config.codeRead = .fault → s.cell (a + BitVec.ofNat 64 k) = some .insTail →
        memRead a s = .error (.codeRead (a + BitVec.ofNat 64 k))) ∧
      (s.config.codeRead = .fault → ∀ t, s.cell (a + BitVec.ofNat 64 k) = some (.insHead t) →
        memRead a s = .error (.codeRead (a + BitVec.ofNat 64 k))))

/-- 20_memory.md R57: `MemWrite` puts the bytes of the value at a, a + 1, ... (in the other order under the big-endian
setting of `ByteOrder`: D2, log 12) as `Byte` cells over whatever stood there, changes nothing else, and past the top raises `F_ADDR_WRAP` and writes nothing; one byte never passes the top
(60_exceptions.md R244). -/
def Obligations.MemoryWritePutsItsBytes : Prop :=
  ∀ (a v : Word) (b : Byte) (s : State),
    (accessible a 8 s → ∃ t, memWrite a v s = .ok t ∧
      (∀ k < 8, t.cell (a + BitVec.ofNat 64 (byteIndex s.config.byteOrder k)) =
        some (.byte (v.extractLsb' (8 * k) 8))) ∧
      MemSameOutside a 8 s t ∧ t.regs = s.regs ∧ t.rip = s.rip ∧ t.flags = s.flags ∧ OwnSame s t) ∧
    (¬ accessible a 8 s → memWrite a v s = .error (.addrWrap a)) ∧
    (∃ t, memWriteByte a b s = .ok t ∧ t.cell a = some (.byte b) ∧
      MemSameOutside a 1 s t ∧ t.regs = s.regs ∧ t.rip = s.rip ∧ t.flags = s.flags ∧ OwnSame s t)

/-- 20_memory.md R66, R72: a quadword written reads back; a byte written at a is bits 8j+7 to 8j of a quadword read at
a - j; where two quadword writes overlap, the later wins byte by byte. Derived: which bits a byte is rests on the byte
order, the spec's own decision D2 (R72; log 12), a - j being a - (7 - j) under its big-endian setting. -/
def Obligations.ReadsReturnTheLatestWriteOfEachByte : Prop :=
  (∀ (a v : Word) (s t : State), memWrite a v s = .ok t → memRead a t = .ok v) ∧
  (∀ (a v : Word) (b : Byte) (j : Nat) (s t : State), j < 8 → memWriteByte a b s = .ok t →
    memRead (a - BitVec.ofNat 64 (byteIndex s.config.byteOrder j)) t = .ok v → v.extractLsb' (8 * j) 8 = b) ∧
  (∀ (a x v w : Word) (s t u : State), memWrite a v s = .ok t → memWrite x w t = .ok u →
    (∀ k < 8, u.cell (x + BitVec.ofNat 64 (byteIndex s.config.byteOrder k)) =
      some (.byte (w.extractLsb' (8 * k) 8))) ∧
    (∀ k < 8, ¬ inBytes x 8 (a + BitVec.ofNat 64 (byteIndex s.config.byteOrder k)) →
      u.cell (a + BitVec.ofNat 64 (byteIndex s.config.byteOrder k)) = some (.byte (v.extractLsb' (8 * k) 8))))

/-- 40_operands_and_condition_codes.md R114: a store to a register replaces all of it and nothing else; a store to an
`Ind` is `MemWrite` at its effective address; an `Imm`, and `rip`, are no location. -/
def Obligations.StoreWritesTheLocation : Prop :=
  ∀ (op : Operand) (r : Gpr) (i v : Word) (s : State),
    (∃ t, store (.reg (.gpr r)) v s = .ok t ∧ t.gpr r = some v ∧ GprsSameBut [r] s t ∧ t.rip = s.rip ∧
      t.flags = s.flags ∧ MemSame s t ∧ OwnSame s t) ∧
    (op.isInd = true →
      (∀ a, addr op s = .ok a → store op v s = memWrite a v s) ∧ (∀ f, addr op s = .error f → store op v s = .error f)) ∧
    (∀ t, store (.imm i) v s ≠ .ok t) ∧ (∀ t, store (.reg .rip) v s ≠ .ok t)

/-- Derived from R56, R57, R110, R112, R114: an operand has a value exactly when its registers and cells hold one, and
can be stored to exactly when it is a location whose address is formed and whose bytes exist. It grounds the
hypotheses of the statements below in the state alone. -/
def Obligations.ReadableAndWritableFromTheState : Prop :=
  ∀ (op : Operand) (v : Word) (s : State),
    ((∃ x, val op s = .ok x) ↔ Readable op s) ∧ ((∃ t, store op v s = .ok t) ↔ Writable op 8 s)

/-! ## Flags and condition codes -/

/-- 40_operands_and_condition_codes.md R117: the overflow predicates say whether the exact integer result leaves the
signed 64-bit range, and equal their bit forms. Derived: the three bit forms are an inference that R117 marks as its
own ("Equal forms on bits `[derived: from rule R6 of 00_scope.md]`"). -/
def Obligations.OverflowPredicatesAndBitForms : Prop :=
  ∀ d x : Word,
    ovfAdd d x = outside64 (d.toInt + x.toInt) ∧ ovfSub d x = outside64 (d.toInt - x.toInt) ∧
    ovfMul d x = outside64 (d.toInt * x.toInt) ∧
    (ovfAdd d x = true ↔ d.msb = x.msb ∧ (d + x).msb ≠ d.msb) ∧
    (ovfSub d x = true ↔ d.msb ≠ x.msb ∧ (d - x).msb ≠ d.msb) ∧
    (ovfMul d x = true ↔
      BitVec.ofInt 128 (d.toInt * x.toInt) ≠ (BitVec.ofInt 64 (d.toInt * x.toInt)).signExtend 128)

/-- 40_operands_and_condition_codes.md R119 to R125: the six condition codes from the flags they need, whatever the
other flags hold; where one they need holds no value, the fault is `F_UNINIT` of such a flag. Derived: which flags a code
needs, and that a missing one faults, is R119, the spec's own decision D16 (log 7); which of two missing flags is named is
left open (log 15). -/
def Obligations.ConditionCodesReadTheirFlags : Prop :=
  ∀ (s : State) (sf ov zf : Bool),
    (s.flags.zf = some zf → condition .eq s = .ok zf ∧ condition .neq s = .ok (!zf)) ∧
    (s.flags.sf = some sf → s.flags.of = some ov →
      condition .lt s = .ok (sf != ov) ∧ condition .ge s = .ok (sf == ov)) ∧
    (s.flags.sf = some sf → s.flags.of = some ov → s.flags.zf = some zf →
      condition .le s = .ok (sf != ov || zf) ∧ condition .gt s = .ok (sf == ov && !zf)) ∧
    (∀ cc, ((∃ b, condition cc s = .ok b) ↔ condReadable cc s) ∧
      ∀ f, condition cc s = .error f → ∃ g, f = .uninit (.flag g) ∧ s.flag g = none ∧
        (cc = .eq ∨ cc = .neq → g = .zf) ∧ (cc = .lt ∨ cc = .ge → g ≠ .zf))

/-- 40_operands_and_condition_codes.md R126: after `cmpq SRC1, SRC2`, and after `subq SRC1, SRC2`, the six codes are
the signed comparisons of `SRC2` with `SRC1`, overflow or not. Derived: R126 marks itself an inference ("[derived: from
rules R117, R120 to R125 and 45_control_flow.md rule R210]"). -/
def Obligations.ConditionCodesAreSignedComparisons : Prop :=
  ∀ (src1 src2 : Operand) (s t : State) (a b : Word), val src2 s = .ok a → val src1 s = .ok b →
    (exec (.cmpq src1 src2) s = .next t ∨ exec (.subq src1 src2) s = .next t) →
    condition .eq t = .ok (decide (a.toInt = b.toInt)) ∧ condition .neq t = .ok (decide (a.toInt ≠ b.toInt)) ∧
    condition .lt t = .ok (decide (a.toInt < b.toInt)) ∧ condition .le t = .ok (decide (a.toInt ≤ b.toInt)) ∧
    condition .gt t = .ok (decide (a.toInt > b.toInt)) ∧ condition .ge t = .ok (decide (a.toInt ≥ b.toInt))

/-! ## What each instruction does, and that it completes -/

/-- 41_arithmetic.md R140. -/
def Obligations.NegqResult : Prop :=
  UnaryResult .negq (fun d => BitVec.ofInt 64 (-d.toInt))
    (fun d _ => flagsOf (d == 0x8000000000000000) (BitVec.ofInt 64 (-d.toInt)))

/-- 41_arithmetic.md R141. -/
def Obligations.AddqResult : Prop :=
  BinaryResult .addq (fun d x => d + x) (fun d x => flagsOf (outside64 (d.toInt + x.toInt)) (d + x))

/-- 41_arithmetic.md R142: the subtrahend is the first operand. -/
def Obligations.SubqResult : Prop :=
  BinaryResult .subq (fun d x => d - x) (fun d x => flagsOf (outside64 (d.toInt - x.toInt)) (d - x))

/-- 41_arithmetic.md R143: the low 64 bits of the signed product go to the register; `OF` says whether it fits; `SF`
and `ZF` are some bits, which the statement leaves open. The destination is a register; no other form is well-formed
(R94). -/
def Obligations.ImulqResult : Prop :=
  ∀ (src : Operand) (r : Gpr) (s : State),
    (∀ f, val src s = .error f → exec (.imulq src (.reg (.gpr r))) s = .fault f) ∧
    (∀ x, val src s = .ok x →
      (s.gpr r = none → exec (.imulq src (.reg (.gpr r))) s = .fault (.uninit (.reg r))) ∧
      (∀ d, s.gpr r = some d → ∃ b c : Bool,
        exec (.imulq src (.reg (.gpr r))) s = .next ((s.setGpr r (BitVec.ofInt 64 (d.toInt * x.toInt))).withFlags
          { of := some (outside64 (d.toInt * x.toInt)), sf := some b, zf := some c })))

/-- 41_arithmetic.md R144, R145: the successor, `OF` exactly for `MAX_INT`; the predecessor, `OF` exactly for
`MIN_INT`. -/
def Obligations.IncqAndDecqResult : Prop :=
  UnaryResult .incq (fun d => d + 1) (fun d _ => flagsOf (d == 0x7fffffffffffffff) (d + 1)) ∧
  UnaryResult .decq (fun d => d - 1) (fun d _ => flagsOf (d == 0x8000000000000000) (d - 1))

/-- 42_logic.md R160: every bit inverted, no flag written. -/
def Obligations.NotqResult : Prop :=
  UnaryResult .notq (fun d => 0xffffffffffffffff - d) (fun _ old => old)

/-- 42_logic.md R161 to R163: bit by bit, `OF` 0, `SF` and `ZF` from the result. -/
def Obligations.LogicResult : Prop :=
  BinaryResult .andq (fun d x => d &&& x) (fun d x => flagsOf false (d &&& x)) ∧
  BinaryResult .orq (fun d x => d ||| x) (fun d x => flagsOf false (d ||| x)) ∧
  BinaryResult .xorq (fun d x => d ^^^ x) (fun d x => flagsOf false (d ^^^ x))

/-- 43_bit_manipulation.md R170: the result is `floor(sval(d) / 2^n)`, for every `n` that R174 leaves; `OF` is 0 after
a shift by 1. Derived: what an amount over 63 does is the spec's own decision D9 (R174), and its flags under `mask6` and
`math` are logs 22 and 17. -/
def Obligations.SarqResult : Prop :=
  ShiftResult .sarq (fun d n => BitVec.ofInt 64 (d.toInt / 2 ^ n)) (fun _ => false)

/-- 43_bit_manipulation.md R171: the result is `uval(d) * 2^n`; after a shift by 1, `OF` says whether the top two bits
of the old value differ. Derived for amounts over 63, as `SarqResult` says: D9 (R174), logs 17 and 22. -/
def Obligations.ShlqResult : Prop :=
  ShiftResult .shlq (fun d n => BitVec.ofNat 64 (d.toNat * 2 ^ n)) (fun d => d.getLsbD 63 != d.getLsbD 62)

/-- 43_bit_manipulation.md R172: the result is `floor(uval(d) / 2^n)`; after a shift by 1, `OF` is the old top bit.
Derived for amounts over 63, as `SarqResult` says: D9 (R174), logs 17 and 22. -/
def Obligations.ShrqResult : Prop :=
  ShiftResult .shrq (fun d n => BitVec.ofNat 64 (d.toNat / 2 ^ n)) (fun d => d.msb)

/-- 43_bit_manipulation.md R174: an amount over 63 under each `ShiftRangePolicy`: the fault; the shift by `n mod 64`;
or all bits shifted out, `SF` and `ZF` from the result and `OF` unchanged. Derived: all of it is the spec's own decision
D9 ("no source says what the shift does"); the flags under `mask6` are log 22, the form of `math` is log 17. -/
def Obligations.ShiftAmountOver63ByPolicy : Prop :=
  ∀ (amt dst : Operand) (s : State) (a : Word), amt.isAmount = true → val amt s = .ok a → 63 < a.toNat →
    (s.config.shiftRange = .fault → ∀ i ∈ [Instr.sarq amt dst, .shlq amt dst, .shrq amt dst],
      exec i s = .fault (.shiftRange a)) ∧
    (s.config.shiftRange = .mask6 →
      exec (.sarq amt dst) s = exec (.sarq (.imm (BitVec.ofNat 64 (a.toNat % 64))) dst) s ∧
      exec (.shlq amt dst) s = exec (.shlq (.imm (BitVec.ofNat 64 (a.toNat % 64))) dst) s ∧
      exec (.shrq amt dst) s = exec (.shrq (.imm (BitVec.ofNat 64 (a.toNat % 64))) dst) s) ∧
    (s.config.shiftRange = .math → ∀ d, val dst s = .ok d → Writable dst 8 s →
      (∃ u, store dst (if d.msb then 0xffffffffffffffff else 0) s = .ok u ∧
        exec (.sarq amt dst) s = .next (u.withFlags { of := s.flags.of, sf := some d.msb, zf := some (!d.msb) })) ∧
      (∃ u, store dst 0 s = .ok u ∧
        exec (.shlq amt dst) s = .next (u.withFlags { of := s.flags.of, sf := some false, zf := some true }) ∧
        exec (.shrq amt dst) s = .next (u.withFlags { of := s.flags.of, sf := some false, zf := some true })))

/-- 43_bit_manipulation.md R173, for each of the six codes: bits 7 to 0 of a register become 1 or 0 and the others
stay; in memory the one byte at `addr(DEST)` does, which is not read and cannot pass the top. Derived: that one byte is
touched and nothing read is the spec's own decision D12 (log 14); that it is the byte at `addr(DEST)` rests on the byte
order, and under the big-endian setting it is the one at `addr(DEST) + 7` (logs 12, 27). -/
def Obligations.SetbResult : Prop :=
  ∀ (cc : CondCode) (dst : Operand) (r : Gpr) (s : State),
    (∀ f, condition cc s = .error f → exec (Instr.setb cc dst) s = .fault f) ∧
    (∀ c, condition cc s = .ok c →
      (∀ v, s.gpr r = some v → exec (Instr.setb cc (.reg (.gpr r))) s =
        .next (s.setGpr r ((v &&& 0xffffffffffffff00) ||| (if c then 1 else 0)))) ∧
      (s.gpr r = none → exec (Instr.setb cc (.reg (.gpr r))) s = .fault (.uninit (.reg r))) ∧
      (dst.isInd = true → ∀ f, addr dst s = .error f → exec (Instr.setb cc dst) s = .fault f) ∧
      (∀ a, addr dst s = .ok a → ∃ t, exec (Instr.setb cc dst) s = .next t ∧
        t.cell (lowByteAddr a s) = some (.byte (if c then 0x01 else 0x00)) ∧
        (s.config.byteOrder = .little → lowByteAddr a s = a) ∧ (s.config.byteOrder = .big → lowByteAddr a s = a + 7) ∧
        MemSameOutside (lowByteAddr a s) 1 s t ∧
        t.regs = s.regs ∧ t.rip = s.rip ∧ t.flags = s.flags ∧ OwnSame s t))

/-- 44_data_movement.md R190: the register gets the address; no memory is accessed, whatever the address. -/
def Obligations.LeaqResult : Prop :=
  ∀ (src : Operand) (r : Gpr) (s : State), src.isInd = true →
    (∀ a, addr src s = .ok a → exec (.leaq src (.reg (.gpr r))) s = .next (s.setGpr r a)) ∧
    (∀ f, addr src s = .error f → exec (.leaq src (.reg (.gpr r))) s = .fault f)

/-- 44_data_movement.md R191. -/
def Obligations.MovqResult : Prop :=
  ∀ (src dst : Operand) (s : State),
    (∀ f, val src s = .error f → exec (.movq src dst) s = .fault f) ∧
    (∀ v, val src s = .ok v →
      (∀ f, store dst v s = .error f → exec (.movq src dst) s = .fault f) ∧
      (Writable dst 8 s → ∃ u, store dst v s = .ok u ∧ exec (.movq src dst) s = .next u))

/-- 44_data_movement.md R192: `rsp` goes down by 8, then `SRC` is evaluated, then stored at the new `rsp`. Under
`RspOperandPolicy = refuse` a `SRC` that uses `rsp` is ill-formed. Derived: that `SRC` is evaluated with the new `rsp` is
the spec's own decision D10 (log 13). -/
def Obligations.PushqResult : Prop :=
  ∀ (src : Operand) (s : State),
    (s.gpr .rsp = none → exec (.pushq src) s = .fault (.uninit (.reg .rsp))) ∧
    (∀ sp, s.gpr .rsp = some sp →
      (∀ f, val src (s.setGpr .rsp (sp - 8)) = .error f → exec (.pushq src) s = .fault f) ∧
      (∀ v, val src (s.setGpr .rsp (sp - 8)) = .ok v →
        (¬ accessible (sp - 8) 8 s → exec (.pushq src) s = .fault (.addrWrap (sp - 8))) ∧
        (accessible (sp - 8) 8 s → ∃ t, memWrite (sp - 8) v (s.setGpr .rsp (sp - 8)) = .ok t ∧
          exec (.pushq src) s = .next t))) ∧
    ((Instr.pushq src).wellFormed .refuse = true ↔ src.usesRsp = false)

/-- 44_data_movement.md R193: the quadword at `rsp` is stored to `DEST`, addressed with the `rsp` from before, and
then `rsp` goes up by 8: from the popped value, where `DEST` is `rsp` itself. Under `RspOperandPolicy = refuse` a
`DEST` that uses `rsp` is ill-formed. Derived: when a `DEST` that uses `rsp` is addressed is the spec's own decision D10
(log 13). -/
def Obligations.PopqResult : Prop :=
  ∀ (dst : Operand) (s : State),
    (s.gpr .rsp = none → exec (.popq dst) s = .fault (.uninit (.reg .rsp))) ∧
    (∀ sp, s.gpr .rsp = some sp →
      (∀ f, memRead sp s = .error f → exec (.popq dst) s = .fault f) ∧
      (∀ v, memRead sp s = .ok v →
        (∀ f, store dst v s = .error f → exec (.popq dst) s = .fault f) ∧
        (Writable dst 8 s → ∃ u, store dst v s = .ok u ∧
          exec (.popq dst) s =
            .next (u.setGpr .rsp ((if dst = .reg (.gpr .rsp) then v else sp) + 8))))) ∧
    (IsLoc dst → ((Instr.popq dst).wellFormed .refuse = true ↔ dst.usesRsp = false))

/-- 45_control_flow.md R210: the flags of `SRC2 - SRC1`, and nothing else. -/
def Obligations.CmpqResult : Prop :=
  ∀ (src1 src2 : Operand) (s : State),
    (∀ f, val src1 s = .error f → exec (.cmpq src1 src2) s = .fault f) ∧
    (∀ x, val src1 s = .ok x →
      (∀ f, val src2 s = .error f → exec (.cmpq src1 src2) s = .fault f) ∧
      (∀ d, val src2 s = .ok d →
        exec (.cmpq src1 src2) s = .next (s.withFlags (flagsOf (outside64 (d.toInt - x.toInt)) (d - x)))))

/-- 45_control_flow.md R211: the target is the value of the operand, absolute, of any alignment. -/
def Obligations.JmpResult : Prop :=
  ∀ (src : Operand) (s : State),
    (∀ f, val src s = .error f → exec (.jmp src) s = .fault f) ∧
    (∀ t, val src s = .ok t → exec (.jmp src) s = .next (s.setRip t))

/-- 45_control_flow.md R212: `rip`, the address after the `callq`, is pushed; the target is evaluated after it.
Under `RspOperandPolicy = refuse` a `SRC` that uses `rsp` is ill-formed. Derived: that `SRC` is evaluated after the push
is the spec's own decision D10 (log 13). -/
def Obligations.CallqResult : Prop :=
  ∀ (src : Operand) (s : State),
    (s.gpr .rsp = none → exec (.callq src) s = .fault (.uninit (.reg .rsp))) ∧
    (∀ sp, s.gpr .rsp = some sp →
      (¬ accessible (sp - 8) 8 s → exec (.callq src) s = .fault (.addrWrap (sp - 8))) ∧
      (accessible (sp - 8) 8 s → ∃ u, memWrite (sp - 8) s.rip (s.setGpr .rsp (sp - 8)) = .ok u ∧
        (∀ f, val src u = .error f → exec (.callq src) s = .fault f) ∧
        (∀ t, val src u = .ok t → exec (.callq src) s = .next (u.setRip t)))) ∧
    ((Instr.callq src).wellFormed .refuse = true ↔ src.usesRsp = false)

/-- 45_control_flow.md R213. -/
def Obligations.RetqResult : Prop :=
  ∀ s : State,
    (s.gpr .rsp = none → exec .retq s = .fault (.uninit (.reg .rsp))) ∧
    (∀ sp, s.gpr .rsp = some sp →
      (∀ f, memRead sp s = .error f → exec .retq s = .fault f) ∧
      (∀ t, memRead sp s = .ok t → exec .retq s = .next ((s.setRip t).setGpr .rsp (sp + 8))))

/-- 45_control_flow.md R214, for each of the six codes: a taken `j` goes to the value of `SRC`; an untaken one falls
through and does not evaluate `SRC`. Derived: that an untaken `j` does not evaluate `SRC` is the spec's own decision D11
(log 14). -/
def Obligations.ConditionalJumpResult : Prop :=
  ∀ (cc : CondCode) (src : Operand) (s : State),
    (∀ f, condition cc s = .error f → exec (Instr.j cc src) s = .fault f) ∧
    (condition cc s = .ok false → exec (Instr.j cc src) s = .next s) ∧
    (condition cc s = .ok true →
      (∀ f, val src s = .error f → exec (Instr.j cc src) s = .fault f) ∧
      (∀ t, val src s = .ok t → exec (Instr.j cc src) s = .next (s.setRip t)))

/-! ## What each instruction leaves unchanged -/

/-- Frame of the instructions that compute all three flags and write one destination of 8 bytes: `negq addq subq incq
decq andq orq xorq` (R140 to R142, R144, R145, R161 to R163). -/
def Obligations.FrameOfArithmeticAndLogic : Prop :=
  ∀ (src dst : Operand) (s t : State),
    ∀ i ∈ [Instr.negq dst, .addq src dst, .subq src dst, .incq dst, .decq dst, .andq src dst, .orq src dst,
      .xorq src dst], exec i s = .next t → DestFrame dst 8 s t

/-- Frame of the instructions that write one destination and no flag: `notq` and `movq`, 8 bytes, and `setb` with each
code, 1 byte, the one at `lowByteAddr` of `addr(DEST)` (R160, R173, R191). That `setb` touches one byte is the spec's own
decision D12 (log 14); that under the big-endian setting it is the one at `addr(DEST) + 7` is the model's reading (log 27,
DEDUCED). -/
def Obligations.FrameOfDestinationWithoutFlags : Prop :=
  ∀ (src dst : Operand) (cc : CondCode) (s t : State),
    (∀ i ∈ [Instr.notq dst, .movq src dst], exec i s = .next t → DestFrame dst 8 s t ∧ t.flags = s.flags) ∧
    (exec (Instr.setb cc dst) s = .next t → LowByteFrame dst s t ∧ t.flags = s.flags)

/-- Frame of the shifts (R170 to R172): one destination of 8 bytes; no flag for an amount of 0, `OF` only for an
amount of 1, the amount being the one `ShiftRangePolicy` leaves (R174). For amounts over 63 that is the spec's own
decision D9; that the flags follow the masked amount under `mask6` is log 22 (DEDUCED), the form of `math` is log 17. -/
def Obligations.FrameOfShifts : Prop :=
  ∀ (amt dst : Operand) (a : Word) (s t : State),
    ∀ i ∈ [Instr.sarq amt dst, .shlq amt dst, .shrq amt dst], exec i s = .next t → val amt s = .ok a →
      DestFrame dst 8 s t ∧ ∀ n, shiftCount a s = .ok n →
        (n = 0 → t.flags = s.flags) ∧ (n ≠ 1 → t.flags.of = s.flags.of)

/-- Frame of the instructions that store nothing and move nothing but one register or the flags: `imulq` and `leaq`
write the named register alone, `leaq` no flag, `cmpq` the flags alone (R143, R190, R210). -/
def Obligations.FrameOfRegisterOnlyInstructions : Prop :=
  ∀ (src dst : Operand) (s t : State),
    (exec (.imulq src dst) s = .next t →
      GprsSameBut (destGprs dst) s t ∧ MemSame s t ∧ t.rip = s.rip ∧ OwnSame s t) ∧
    (exec (.leaq src dst) s = .next t →
      GprsSameBut (destGprs dst) s t ∧ MemSame s t ∧ t.rip = s.rip ∧ t.flags = s.flags ∧ OwnSame s t) ∧
    (exec (.cmpq src dst) s = .next t → t.regs = s.regs ∧ MemSame s t ∧ t.rip = s.rip ∧ OwnSame s t)

/-- Frame of `pushq` and `callq`: `rsp` is the one register they change, the 8 bytes below the old `rsp` the only
memory; no flag; `pushq` leaves `rip` (R192, R212). -/
def Obligations.FrameOfPushes : Prop :=
  ∀ (src : Operand) (s t : State),
    ∀ i ∈ [Instr.pushq src, .callq src], exec i s = .next t →
      GprsSameBut [.rsp] s t ∧ t.flags = s.flags ∧ OwnSame s t ∧
        (∀ sp, s.gpr .rsp = some sp → MemSameOutside (sp - 8) 8 s t) ∧
        (i = .pushq src → t.rip = s.rip)

/-- Frame of `popq`: the destination and `rsp` are the registers it changes; a memory destination is the 8 bytes at
`addr(DEST)` of the state before the increment (the spec's own decision D10, log 13); no flag; `rip` stays (R193). -/
def Obligations.FrameOfPopq : Prop :=
  ∀ (dst : Operand) (s t : State), exec (.popq dst) s = .next t →
    GprsSameBut (.rsp :: destGprs dst) s t ∧ t.rip = s.rip ∧ t.flags = s.flags ∧ OwnSame s t ∧
      (dst.isInd = false → MemSame s t) ∧ (∀ a, addr dst s = .ok a → MemSameOutside a 8 s t)

/-- Frame of `jmp`, `retq` and `j` with each code: no memory, no flag, and no register but `rsp` of `retq`; only `rip`
moves (R211, R213, R214). -/
def Obligations.FrameOfJumpsAndReturn : Prop :=
  ∀ (cc : CondCode) (src : Operand) (s t : State),
    (∀ i ∈ [Instr.jmp src, Instr.j cc src], exec i s = .next t →
      t.regs = s.regs ∧ MemSame s t ∧ t.flags = s.flags ∧ OwnSame s t) ∧
    (exec .retq s = .next t → GprsSameBut [.rsp] s t ∧ MemSame s t ∧ t.flags = s.flags ∧ OwnSame s t)

/-! ## Whole-machine rules -/

/-- Every step keeps the canonical form of memory. -/
def Obligations.StepKeepsMemoryCanonical : Prop :=
  ∀ s t : State, s.mem.wf = true → step s = .next t → t.mem.wf = true

/-- 20_memory.md R53, R57, R70: no step can create an instruction: a cell that a step changes holds a `Byte`. -/
def Obligations.NoStepCreatesInstructionCells : Prop :=
  ∀ s t : State, step s = .next t → ∀ x, t.cell x = s.cell x ∨ ∃ b, t.cell x = some (.byte b)

/-- 60_exceptions.md R247: once every register and flag holds a value they all do after every step, and then no step
raises `F_UNINIT` for a register or a flag. -/
def Obligations.StepKeepsRegistersAndFlagsValued : Prop :=
  ∀ s : State, s.allValued →
    (∀ t, step s = .next t → t.allValued) ∧ (∀ w, step s = .fault (.uninit w) → ∃ a, w = .cell a)

/-- The invariants of the three statements above hold after reset. The values are the model's own choice (logs 3 to 6);
the statement says only that there are some, that memory is canonical and holds `HaltAddr` at the top of the stack and
nothing else (70_reset_and_hazards.md R272, R274, R275), and that the settings are the spec's defaults (R5). -/
def Obligations.ResetMeetsTheInvariants : Prop :=
  State.reset.allValued ∧ State.reset.mem.wf = true ∧
    (∃ sp, State.reset.gpr .rsp = some sp ∧ memRead sp State.reset = .ok State.reset.haltAddr ∧
      ∀ x, ¬ inBytes sp 8 x → State.reset.cell x = none) ∧
    State.reset.config =
      { cellModel := .symbolic, byteOrder := .little, topWrap := .fault, codeRead := .fault, shiftRange := .fault,
        rspOperand := .literal }

/-- 00_scope.md R5, 10_state.md R20: the launch parameters are no state of the machine: no step changes them. The
model's draw number goes up by one, so that every step draws afresh (R118, log 10). -/
def Obligations.StepKeepsTheLaunchParameters : Prop :=
  ∀ s t : State, step s = .next t → t.haltAddr = s.haltAddr ∧ t.config = s.config ∧ t.draws = s.draws + 1

/-- 10_state.md R36: `rip` is written only by the increment and by `jmp`, `callq`, `retq` and `j`. -/
def Obligations.OnlyControlFlowWritesRip : Prop :=
  ∀ (i : Instr) (s t : State), exec i s = .next t →
    t.rip = s.rip ∨ i = .retq ∨ (∃ src, i = .jmp src ∨ i = .callq src ∨ ∃ cc, i = Instr.j cc src)

/-- 10_state.md R23: a general register changes only where it is the written operand, or is `rsp` under `pushq`,
`popq`, `callq`, `retq`. -/
def Obligations.RegistersChangeOnlyWhereNamed : Prop :=
  ∀ (i : Instr) (s t : State) (r : Gpr), exec i s = .next t → t.gpr r ≠ s.gpr r →
    i.written = some (.reg (.gpr r)) ∨
      (r = .rsp ∧ (i = .retq ∨ ∃ op, i = .pushq op ∨ i = .popq op ∨ i = .callq op))

/-- 60_exceptions.md R241 to R247, R253: a step's fault says what happened: each kind only under its condition and,
where it depends on one, its policy. No arithmetic result is a fault. -/
def Obligations.FaultsSayWhatHappened : Prop :=
  ∀ (s : State) (f : Fault), step s = .fault f →
    match f with
    | .fetch a => a = s.rip ∧ fetch s.rip s = .error (.fetch a)
    | .illFormed a => a = s.rip ∧ ∃ t, s.cell s.rip = some (.insHead t) ∧
        (t.operands.length ≠ t.op.arity ∨ ∃ i : Instr, i.term = t ∧ i.wellFormed s.config.rspOperand = false)
    | .addrWrap a => s.config.topWrap = .fault ∧ 2 ^ 64 < a.toNat + 8
    | .codeRead a => s.config.codeRead = .fault ∧ (s.cell a = some .insTail ∨ ∃ t, s.cell a = some (.insHead t))
    | .shiftRange a => s.config.shiftRange = .fault ∧ 63 < a.toNat ∧
        ∃ amt dst, fetch s.rip s = .ok (some (.sarq amt dst)) ∨ fetch s.rip s = .ok (some (.shlq amt dst)) ∨
          fetch s.rip s = .ok (some (.shrq amt dst))
    | .uninit (.reg r) => s.gpr r = none
    | .uninit (.flag g) => s.flag g = none
    | .uninit (.cell a) => s.cell a = none

/-- 44_data_movement.md R193: "`popq` after `pushq` of the same register restores it, and `rsp`, exactly", for every
register but `rsp` itself. -/
def Obligations.PopAfterPushRestores : Prop :=
  ∀ (r : Gpr) (s t : State), r ≠ .rsp → exec (.pushq (.reg (.gpr r))) s = .next t →
    ∃ u, exec (.popq (.reg (.gpr r))) t = .next u ∧ ∀ q, u.gpr q = s.gpr q

/-- 45_control_flow.md R212, R213: a `retq` that finds `rsp` as the `callq` left it goes to the instruction after the
`callq` and gives `rsp` its old value back. -/
def Obligations.ReturnAfterCallComesBack : Prop :=
  ∀ (src : Operand) (s t v : State), exec (.callq src) s = .next t → v.gpr .rsp = t.gpr .rsp → v.mem = t.mem →
    v.config = t.config →
    ∃ u, exec .retq v = .next u ∧ u.rip = s.rip ∧ u.gpr .rsp = s.gpr .rsp

/-- 70_reset_and_hazards.md R270 to R275: a launch's first state, and the `retq` of its entry procedure: with `rsp` at
`Rsp0` and the slot as launched, it ends the run with `rsp = Rsp0 + 8`. Where the eight bytes at `Rsp0` pass the top,
which the launch owes not to happen (R277), which addresses they are is the model's choice (log 26). -/
def Obligations.LaunchStateAndItsReturn : Prop :=
  ∀ (l : Launch), l.start.rip = l.entry ∧ l.start.gpr .rsp = some l.rsp0 ∧
    (∀ r, r ≠ .rsp → l.start.gpr r = l.regs0.get r) ∧ l.start.flags = l.flags0 ∧ l.start.haltAddr = l.haltAddr ∧
    l.start.config = l.config ∧ (∀ x, ¬ inBytes l.rsp0 8 x → l.start.cell x = Memory.get l.mem0 x.toNat) ∧
    (accessible l.rsp0 8 l.start → memRead l.rsp0 l.start = .ok l.haltAddr ∧
      ∀ p, ∃ t, exec .retq (l.start.setRip p) = .next t ∧ t.ended ∧ t.gpr .rsp = some (l.rsp0 + 8))

/-- 30_encoding.md R89: the k-th instruction of a program laid out from `base` stands at `base + 8k`, and a label
before it is listed in `labelValues` with that value (one after the last instruction too: the model's choice, log 25).
Listed, not more: which value a label that is listed twice resolves to is the model's choice (log 24), and the statement
leaves it open. -/
def Obligations.LayoutPlacesInstructionsAndLabels : Prop :=
  (∀ (is : List Instr) (base : Word) (s : State), base.toNat + 8 * is.length ≤ 2 ^ 64 →
    ∀ (k : Nat) (hk : k < is.length),
      StandsAt is[k] (base + BitVec.ofNat 64 (8 * k)) { s with mem := s.mem.layout base (is.map Instr.term) }) ∧
  (∀ (before after : List Line) (n : Nat) (base : Word),
    (n, base + BitVec.ofNat 64 (8 * (before.filter fun l => match l with
      | .instr _ _ => true
      | .label _ => false).length)) ∈ labelValues base (before ++ .label n :: after))
end

