-- ==== Sys2Proof/Laws/State.lean ====
section
/-! SUPPORT. What each update of the state leaves in each field: one lemma per field per update, by rfl, so that no
later proof unfolds a record update. -/

namespace Sys2Proof.Machine

/-! ## setGpr -/

@[simp] theorem setGpr_rip (s : State) (r : Gpr) (v : Word) : (s.setGpr r v).rip = s.rip := rfl
@[simp] theorem setGpr_flags (s : State) (r : Gpr) (v : Word) : (s.setGpr r v).flags = s.flags := rfl
@[simp] theorem setGpr_flag (s : State) (r : Gpr) (v : Word) (f' : Flag) : (s.setGpr r v).flag f' = s.flag f' := rfl
@[simp] theorem setGpr_mem (s : State) (r : Gpr) (v : Word) : (s.setGpr r v).mem = s.mem := rfl
@[simp] theorem setGpr_cell (s : State) (r : Gpr) (v : Word) (x : Word) : (s.setGpr r v).cell x = s.cell x := rfl
@[simp] theorem setGpr_haltAddr (s : State) (r : Gpr) (v : Word) : (s.setGpr r v).haltAddr = s.haltAddr := rfl
@[simp] theorem setGpr_config (s : State) (r : Gpr) (v : Word) : (s.setGpr r v).config = s.config := rfl
@[simp] theorem setGpr_draws (s : State) (r : Gpr) (v : Word) : (s.setGpr r v).draws = s.draws := rfl

/-! ## setRip -/

@[simp] theorem setRip_regs (s : State) (t : Word) : (s.setRip t).regs = s.regs := rfl
@[simp] theorem setRip_gpr (s : State) (t : Word) (g : Gpr) : (s.setRip t).gpr g = s.gpr g := rfl
@[simp] theorem setRip_flags (s : State) (t : Word) : (s.setRip t).flags = s.flags := rfl
@[simp] theorem setRip_flag (s : State) (t : Word) (f' : Flag) : (s.setRip t).flag f' = s.flag f' := rfl
@[simp] theorem setRip_mem (s : State) (t : Word) : (s.setRip t).mem = s.mem := rfl
@[simp] theorem setRip_cell (s : State) (t : Word) (x : Word) : (s.setRip t).cell x = s.cell x := rfl
@[simp] theorem setRip_haltAddr (s : State) (t : Word) : (s.setRip t).haltAddr = s.haltAddr := rfl
@[simp] theorem setRip_config (s : State) (t : Word) : (s.setRip t).config = s.config := rfl
@[simp] theorem setRip_draws (s : State) (t : Word) : (s.setRip t).draws = s.draws := rfl

/-! ## setOF -/

@[simp] theorem setOF_regs (s : State) (b : Bool) : (setOF b s).regs = s.regs := rfl
@[simp] theorem setOF_gpr (s : State) (b : Bool) (g : Gpr) : (setOF b s).gpr g = s.gpr g := rfl
@[simp] theorem setOF_rip (s : State) (b : Bool) : (setOF b s).rip = s.rip := rfl
@[simp] theorem setOF_mem (s : State) (b : Bool) : (setOF b s).mem = s.mem := rfl
@[simp] theorem setOF_cell (s : State) (b : Bool) (x : Word) : (setOF b s).cell x = s.cell x := rfl
@[simp] theorem setOF_haltAddr (s : State) (b : Bool) : (setOF b s).haltAddr = s.haltAddr := rfl
@[simp] theorem setOF_config (s : State) (b : Bool) : (setOF b s).config = s.config := rfl
@[simp] theorem setOF_draws (s : State) (b : Bool) : (setOF b s).draws = s.draws := rfl

/-! ## setSZ -/

@[simp] theorem setSZ_regs (s : State) (r : Word) : (setSZ r s).regs = s.regs := rfl
@[simp] theorem setSZ_gpr (s : State) (r : Word) (g : Gpr) : (setSZ r s).gpr g = s.gpr g := rfl
@[simp] theorem setSZ_rip (s : State) (r : Word) : (setSZ r s).rip = s.rip := rfl
@[simp] theorem setSZ_mem (s : State) (r : Word) : (setSZ r s).mem = s.mem := rfl
@[simp] theorem setSZ_cell (s : State) (r : Word) (x : Word) : (setSZ r s).cell x = s.cell x := rfl
@[simp] theorem setSZ_haltAddr (s : State) (r : Word) : (setSZ r s).haltAddr = s.haltAddr := rfl
@[simp] theorem setSZ_config (s : State) (r : Word) : (setSZ r s).config = s.config := rfl
@[simp] theorem setSZ_draws (s : State) (r : Word) : (setSZ r s).draws = s.draws := rfl

/-! ## setSZTo -/

@[simp] theorem setSZTo_regs (s : State) (a b : Bool) : (setSZTo a b s).regs = s.regs := rfl
@[simp] theorem setSZTo_gpr (s : State) (a b : Bool) (g : Gpr) : (setSZTo a b s).gpr g = s.gpr g := rfl
@[simp] theorem setSZTo_rip (s : State) (a b : Bool) : (setSZTo a b s).rip = s.rip := rfl
@[simp] theorem setSZTo_mem (s : State) (a b : Bool) : (setSZTo a b s).mem = s.mem := rfl
@[simp] theorem setSZTo_cell (s : State) (a b : Bool) (x : Word) : (setSZTo a b s).cell x = s.cell x := rfl
@[simp] theorem setSZTo_haltAddr (s : State) (a b : Bool) : (setSZTo a b s).haltAddr = s.haltAddr := rfl
@[simp] theorem setSZTo_config (s : State) (a b : Bool) : (setSZTo a b s).config = s.config := rfl
@[simp] theorem setSZTo_draws (s : State) (a b : Bool) : (setSZTo a b s).draws = s.draws := rfl

/-! ## withFlags -/

@[simp] theorem withFlags_regs (s : State) (f : Flags) : (s.withFlags f).regs = s.regs := rfl
@[simp] theorem withFlags_gpr (s : State) (f : Flags) (g : Gpr) : (s.withFlags f).gpr g = s.gpr g := rfl
@[simp] theorem withFlags_rip (s : State) (f : Flags) : (s.withFlags f).rip = s.rip := rfl
@[simp] theorem withFlags_mem (s : State) (f : Flags) : (s.withFlags f).mem = s.mem := rfl
@[simp] theorem withFlags_cell (s : State) (f : Flags) (x : Word) : (s.withFlags f).cell x = s.cell x := rfl
@[simp] theorem withFlags_haltAddr (s : State) (f : Flags) : (s.withFlags f).haltAddr = s.haltAddr := rfl
@[simp] theorem withFlags_config (s : State) (f : Flags) : (s.withFlags f).config = s.config := rfl
@[simp] theorem withFlags_draws (s : State) (f : Flags) : (s.withFlags f).draws = s.draws := rfl

/-! ## setCells -/

@[simp] theorem setCells_regs (s : State) (a : Word) (cs : List MemCell) : (s.setCells a cs).regs = s.regs := rfl
@[simp] theorem setCells_gpr (s : State) (a : Word) (cs : List MemCell) (g : Gpr) : (s.setCells a cs).gpr g = s.gpr g := rfl
@[simp] theorem setCells_rip (s : State) (a : Word) (cs : List MemCell) : (s.setCells a cs).rip = s.rip := rfl
@[simp] theorem setCells_flags (s : State) (a : Word) (cs : List MemCell) : (s.setCells a cs).flags = s.flags := rfl
@[simp] theorem setCells_flag (s : State) (a : Word) (cs : List MemCell) (f' : Flag) : (s.setCells a cs).flag f' = s.flag f' := rfl
@[simp] theorem setCells_haltAddr (s : State) (a : Word) (cs : List MemCell) : (s.setCells a cs).haltAddr = s.haltAddr := rfl
@[simp] theorem setCells_config (s : State) (a : Word) (cs : List MemCell) : (s.setCells a cs).config = s.config := rfl
@[simp] theorem setCells_draws (s : State) (a : Word) (cs : List MemCell) : (s.setCells a cs).draws = s.draws := rfl

/-! ## setBytes -/

@[simp] theorem setBytes_regs (s : State) (a : Word) (bs : List Byte) : (s.setBytes a bs).regs = s.regs := rfl
@[simp] theorem setBytes_gpr (s : State) (a : Word) (bs : List Byte) (g : Gpr) : (s.setBytes a bs).gpr g = s.gpr g := rfl
@[simp] theorem setBytes_rip (s : State) (a : Word) (bs : List Byte) : (s.setBytes a bs).rip = s.rip := rfl
@[simp] theorem setBytes_flags (s : State) (a : Word) (bs : List Byte) : (s.setBytes a bs).flags = s.flags := rfl
@[simp] theorem setBytes_flag (s : State) (a : Word) (bs : List Byte) (f' : Flag) : (s.setBytes a bs).flag f' = s.flag f' := rfl
@[simp] theorem setBytes_haltAddr (s : State) (a : Word) (bs : List Byte) : (s.setBytes a bs).haltAddr = s.haltAddr := rfl
@[simp] theorem setBytes_config (s : State) (a : Word) (bs : List Byte) : (s.setBytes a bs).config = s.config := rfl
@[simp] theorem setBytes_draws (s : State) (a : Word) (bs : List Byte) : (s.setBytes a bs).draws = s.draws := rfl

/-! ## enterInstr -/

@[simp] theorem enterInstr_regs (s : State) : (enterInstr s).regs = s.regs := rfl
@[simp] theorem enterInstr_gpr (s : State) (g : Gpr) : (enterInstr s).gpr g = s.gpr g := rfl
@[simp] theorem enterInstr_flags (s : State) : (enterInstr s).flags = s.flags := rfl
@[simp] theorem enterInstr_flag (s : State) (f' : Flag) : (enterInstr s).flag f' = s.flag f' := rfl
@[simp] theorem enterInstr_mem (s : State) : (enterInstr s).mem = s.mem := rfl
@[simp] theorem enterInstr_cell (s : State) (x : Word) : (enterInstr s).cell x = s.cell x := rfl
@[simp] theorem enterInstr_haltAddr (s : State) : (enterInstr s).haltAddr = s.haltAddr := rfl
@[simp] theorem enterInstr_config (s : State) : (enterInstr s).config = s.config := rfl

/-! ## The fields an update writes -/

@[simp] theorem setGpr_regs (s : State) (r : Gpr) (v : Word) : (s.setGpr r v).regs = s.regs.set r v := rfl
@[simp] theorem setRip_rip (s : State) (t : Word) : (s.setRip t).rip = t := rfl
@[simp] theorem setOF_flags (s : State) (b : Bool) : (setOF b s).flags = { s.flags with of := some b } := rfl
@[simp] theorem setSZ_flags (s : State) (r : Word) :
    (setSZ r s).flags = { s.flags with sf := some r.msb, zf := some (r == 0) } := rfl
@[simp] theorem setSZTo_flags (s : State) (a b : Bool) :
    (setSZTo a b s).flags = { s.flags with sf := some a, zf := some b } := rfl
@[simp] theorem withFlags_flags (s : State) (f : Flags) : (s.withFlags f).flags = f := rfl
@[simp] theorem setCells_mem (s : State) (a : Word) (cs : List MemCell) :
    (s.setCells a cs).mem = s.mem.setCells a cs := rfl
@[simp] theorem setBytes_mem (s : State) (a : Word) (bs : List Byte) :
    (s.setBytes a bs).mem = s.mem.setCells a (bs.map .byte) := rfl
@[simp] theorem enterInstr_rip (s : State) : (enterInstr s).rip = s.rip + 8 := rfl
@[simp] theorem enterInstr_draws (s : State) : (enterInstr s).draws = s.draws + 1 := rfl

/-! ## One register written, another read -/

@[simp] theorem RegFile.get_set_same (f : RegFile) (r : Gpr) (v : Word) : (f.set r v).get r = some v := by
  cases r <;> rfl

@[simp] theorem RegFile.get_set_other (f : RegFile) {r q : Gpr} (v : Word) (h : q ≠ r) :
    (f.set r v).get q = f.get q := by
  cases r <;> cases q <;> first | rfl | exact absurd rfl h

@[simp] theorem setGpr_gpr_same (s : State) (r : Gpr) (v : Word) : (s.setGpr r v).gpr r = some v :=
  RegFile.get_set_same _ _ _

@[simp] theorem setGpr_gpr_other (s : State) {r q : Gpr} (v : Word) (h : q ≠ r) : (s.setGpr r v).gpr q = s.gpr q :=
  RegFile.get_set_other _ _ h

/-- A register write leaves every register valued or as it was. -/
theorem setGpr_gpr_isSome (s : State) (r q : Gpr) (v : Word) (h : (s.gpr q).isSome) : ((s.setGpr r v).gpr q).isSome := by
  by_cases e : q = r
  · subst e; simp
  · rwa [setGpr_gpr_other _ _ e]

/-- The flag updates of an arithmetic or logic result are the flags of `flagsOf`. -/
theorem setSZ_setOF (s : State) (b : Bool) (r : Word) : setSZ r (setOF b s) = s.withFlags (flagsOf b r) := rfl

end Sys2Proof.Machine
end

