-- ==== Sys2Proof/Laws/Memory.lean ====
section
/-! SUPPORT. Memory as a list of cells: a read after a write, the canonical form, and bytes against quadwords. -/

namespace Sys2Proof.Machine

/-! ## A read after a write -/

@[simp] theorem Memory.get_set_same (m : Memory) (a : Nat) (c : MemCell) : (Memory.set m a c).get a = some c := by
  induction m with
  | nil => simp [Memory.set, Memory.get]
  | cons p m ih =>
    obtain ⟨b, d⟩ := p
    unfold Memory.set
    split
    · simp [Memory.get]
    · split
      · simp [Memory.get]
      · rename_i h
        simp [Memory.get, h, ih]

@[simp] theorem Memory.get_set_other (m : Memory) {a x : Nat} (c : MemCell) (h : x ≠ a) :
    (Memory.set m a c).get x = m.get x := by
  induction m with
  | nil => simp [Memory.set, Memory.get, h]
  | cons p m ih =>
    obtain ⟨b, d⟩ := p
    unfold Memory.set
    split
    · simp [Memory.get, h]
    · split
      · rename_i e; subst e; simp [Memory.get, h]
      · simp [Memory.get, ih]

/-- A cell that stands at an address is listed. -/
theorem Memory.mem_of_get {m : Memory} {a : Nat} {c : MemCell} (h : m.get a = some c) : (a, c) ∈ m := by
  induction m with
  | nil => cases h
  | cons p m ih =>
    obtain ⟨b, d⟩ := p
    unfold Memory.get at h
    split at h
    · rename_i e
      cases h
      exact e ▸ List.mem_cons_self
    · exact List.mem_cons_of_mem _ (ih h)

/-- Cells written from `a` upward leave every cell outside them as it was. -/
theorem Memory.get_setCells_outside (cs : List MemCell) (m : Memory) (a x : Word)
    (h : ¬ inBytes a cs.length x) : (Memory.setCells m a cs).get x.toNat = m.get x.toNat := by
  induction cs generalizing m a with
  | nil => rfl
  | cons c cs ih =>
    have h0 : x ≠ a := fun e => h ⟨0, by simp, by simp [e]⟩
    have hs : ¬ inBytes (a + 1) cs.length x := by
      rintro ⟨k, hk, e⟩
      refine h ⟨k + 1, by simpa using hk, ?_⟩
      rw [e, BitVec.ofNat_add, BitVec.add_assoc]
      congr 1
      exact BitVec.add_comm _ _
    rw [Memory.setCells, ih _ _ hs]
    exact Memory.get_set_other _ _ fun e => h0 (BitVec.eq_of_toNat_eq e)

/-- Cell `k` of the cells written from `a` upward reads back (at most 2^64 cells, so that none is written twice). -/
theorem Memory.get_setCells_inside (cs : List MemCell) (m : Memory) (a : Word) (k : Nat) (hk : k < cs.length)
    (hn : cs.length ≤ 2 ^ 64) :
    (Memory.setCells m a cs).get (a + BitVec.ofNat 64 k).toNat = some cs[k] := by
  induction cs generalizing m a k with
  | nil => simp at hk
  | cons c cs ih =>
    simp only [List.length_cons] at hk hn
    rw [Memory.setCells]
    cases k with
    | zero =>
      have : ¬ inBytes (a + 1) cs.length (a + BitVec.ofNat 64 0) := by
        rintro ⟨j, hj, e⟩
        have := congrArg BitVec.toNat e
        have one : (1 : Word).toNat = 1 := rfl
        simp only [BitVec.toNat_add, BitVec.toNat_ofNat, one] at this
        omega
      rw [Memory.get_setCells_outside _ _ _ _ this]
      simp
    | succ k =>
      have e : a + BitVec.ofNat 64 (k + 1) = (a + 1) + BitVec.ofNat 64 k := by
        rw [BitVec.ofNat_add, BitVec.add_assoc]
        congr 1
        exact BitVec.add_comm _ _
      rw [e, ih _ _ _ (by omega) (by omega)]
      simp

/-- The cells of a state after cells are written: outside them. -/
theorem setCells_cell_outside (s : State) (a x : Word) (cs : List MemCell) (h : ¬ inBytes a cs.length x) :
    (s.setCells a cs).cell x = s.cell x :=
  Memory.get_setCells_outside cs s.mem a x h

/-- The cells of a state after cells are written: the `k`-th of them. -/
theorem setCells_cell_inside (s : State) (a : Word) (cs : List MemCell) (k : Nat) (hk : k < cs.length)
    (hn : cs.length ≤ 2 ^ 64) : (s.setCells a cs).cell (a + BitVec.ofNat 64 k) = some cs[k] :=
  Memory.get_setCells_inside cs s.mem a k hk hn

/-! ## The canonical form -/

theorem Memory.wf_cons (a : Nat) (c : MemCell) (m : Memory) :
    Memory.wf ((a, c) :: m) = true ↔ a < memSize ∧ (∀ p ∈ m, a < p.1) ∧ Memory.wf m = true := by
  induction m generalizing a c with
  | nil => simp [Memory.wf]
  | cons p m ih =>
    obtain ⟨b, d⟩ := p
    simp only [Memory.wf, Bool.and_eq_true, decide_eq_true_eq, List.mem_cons, forall_eq_or_imp]
    constructor
    · rintro ⟨hab, hw⟩
      have h := (ih b d).1 hw
      exact ⟨by omega, ⟨hab, fun p hp => by have := h.2.1 p hp; omega⟩, hw⟩
    · rintro ⟨-, ⟨hab, -⟩, hw⟩
      exact ⟨hab, hw⟩

theorem Memory.mem_set (m : Memory) (a : Nat) (c : MemCell) (p : Nat × MemCell) (h : p ∈ Memory.set m a c) :
    p = (a, c) ∨ p ∈ m := by
  induction m with
  | nil => simpa [Memory.set] using h
  | cons q m ih =>
    obtain ⟨b, d⟩ := q
    unfold Memory.set at h
    split at h
    · simpa using h
    · split at h
      · simp only [List.mem_cons] at h ⊢
        tauto
      · simp only [List.mem_cons] at h ⊢
        rcases h with h | h
        · exact .inr (.inl h)
        · rcases ih h with h | h <;> tauto

/-- Writing one cell keeps the canonical form. -/
theorem Memory.wf_set (m : Memory) (a : Nat) (c : MemCell) (ha : a < memSize) (h : Memory.wf m = true) :
    Memory.wf (Memory.set m a c) = true := by
  induction m with
  | nil => simpa [Memory.set, Memory.wf] using ha
  | cons q m ih =>
    obtain ⟨b, d⟩ := q
    obtain ⟨hb, hlt, hw⟩ := (Memory.wf_cons b d m).1 h
    unfold Memory.set
    split
    · rename_i hab
      refine (Memory.wf_cons _ _ _).2 ⟨ha, ?_, h⟩
      intro p hp
      rcases List.mem_cons.1 hp with rfl | hp
      · exact hab
      · have := hlt p hp
        omega
    · split
      · rename_i e
        subst e
        exact (Memory.wf_cons _ _ _).2 ⟨ha, hlt, hw⟩
      · refine (Memory.wf_cons _ _ _).2 ⟨hb, ?_, ih hw⟩
        intro p hp
        rcases Memory.mem_set m a c p hp with rfl | hp
        · simp only
          omega
        · exact hlt p hp

/-- Writing cells keeps the canonical form. -/
theorem Memory.wf_setCells (cs : List MemCell) (m : Memory) (a : Word) (h : Memory.wf m = true) :
    Memory.wf (Memory.setCells m a cs) = true := by
  induction cs generalizing m a with
  | nil => exact h
  | cons c cs ih => exact ih _ _ (Memory.wf_set m _ c a.isLt h)

/-- Laying out a program keeps the canonical form. -/
theorem Memory.wf_layout (ts : List Term) (m : Memory) (base : Word) (h : Memory.wf m = true) :
    Memory.wf (Memory.layout m base ts) = true := by
  induction ts generalizing m base with
  | nil => exact h
  | cons t ts ih => exact ih _ _ (Memory.wf_setCells _ _ _ h)

/-- A launch keeps the canonical form of its `Mem0`. -/
theorem Launch.wf_start (l : Launch) (h : Memory.wf l.mem0 = true) : Memory.wf l.start.mem = true :=
  Memory.wf_setCells _ _ _ h

/-- Every write to memory keeps the canonical form. -/
theorem memWrite_wf {a v : Word} {s t : State} (h : memWrite a v s = .ok t) (hw : Memory.wf s.mem = true) :
    Memory.wf t.mem = true := by
  unfold memWrite checkAccess at h
  split at h
  · cases h
    exact Memory.wf_setCells _ _ _ hw
  · cases h

theorem memWriteByte_wf {a : Word} {b : Byte} {s t : State} (h : memWriteByte a b s = .ok t)
    (hw : Memory.wf s.mem = true) : Memory.wf t.mem = true := by
  unfold memWriteByte checkAccess at h
  split at h
  · cases h
    exact Memory.wf_setCells _ _ _ hw
  · cases h

/-! ## Bytes and quadwords -/

@[simp] theorem quadBytes_length (o : ByteOrder) (v : Word) : (quadBytes o v).length = 8 := by cases o <;> rfl

theorem byteIndex_lt {o : ByteOrder} {k : Nat} (h : k < 8) : byteIndex o k < 8 := by
  cases o <;> simp only [byteIndex] <;> omega

/-- The order of the bytes turned twice is the order it was. -/
theorem byteIndex_byteIndex {o : ByteOrder} {k : Nat} (h : k < 8) : byteIndex o (byteIndex o k) = k := by
  cases o <;> simp only [byteIndex] <;> omega

@[simp] theorem orderBytes_orderBytes (o : ByteOrder) (bs : List Byte) : orderBytes o (orderBytes o bs) = bs := by
  cases o <;> simp [orderBytes]

/-- The bytes of a quadword join to it again. -/
theorem joinBytes_quadBytes (o : ByteOrder) (v : Word) : joinBytes o (quadBytes o v) = v := by
  rw [joinBytes, quadBytes, orderBytes_orderBytes]
  ext i hi
  simp only [concatBytes, byteAt, BitVec.getElem_or, BitVec.getElem_shiftLeft, BitVec.getElem_setWidth,
    BitVec.getLsbD_extractLsb']
  interval_cases i <;> simp

end Sys2Proof.Machine
end

