-- ==== Sys2Proof/Laws/Ops.lean ====
section
/-! SUPPORT. What each shared operation does, said once: if it answers, then this. -/

namespace Sys2Proof.Machine

/-! ## Statements one after the other -/

@[simp] theorem bind_ok {α β : Type} (a : α) (f : α → Except Fault β) : (Except.ok a >>= f) = f a := rfl

@[simp] theorem bind_error {α β : Type} (e : Fault) (f : α → Except Fault β) :
    ((Except.error e : Except Fault α) >>= f) = .error e := rfl

theorem bind_eq_ok {α β : Type} {x : Except Fault α} {f : α → Except Fault β} {b : β} :
    (x >>= f) = .ok b ↔ ∃ a, x = .ok a ∧ f a = .ok b := by
  cases x <;> simp

theorem bind_eq_error {α β : Type} {x : Except Fault α} {f : α → Except Fault β} {e : Fault} :
    (x >>= f) = .error e ↔ x = .error e ∨ ∃ a, x = .ok a ∧ f a = .error e := by
  cases x <;> simp

theorem pure_eq_ok {α : Type} (a : α) : (pure a : Except Fault α) = .ok a := rfl

@[simp] theorem outcome_ok (s : State) : outcome (.ok s) = .next s := rfl

@[simp] theorem outcome_error (f : Fault) : outcome (.error f) = .fault f := rfl

@[simp] theorem outcome_eq_next {x : Except Fault State} {t : State} : outcome x = .next t ↔ x = .ok t := by
  cases x <;> simp [outcome]

@[simp] theorem outcome_eq_fault {x : Except Fault State} {f : Fault} : outcome x = .fault f ↔ x = .error f := by
  cases x <;> simp [outcome]

theorem outcome_ne_refused (x : Except Fault State) (r : Refusal) : outcome x ≠ .refused r := by
  cases x <;> simp [outcome]

/-! ## Registers and flags -/

theorem readGpr_eq_ok {r : Gpr} {s : State} {v : Word} : readGpr r s = .ok v ↔ s.gpr r = some v := by
  unfold readGpr
  cases h : s.gpr r <;> simp

theorem readGpr_of_gpr {r : Gpr} {s : State} {v : Word} (h : s.gpr r = some v) : readGpr r s = .ok v :=
  readGpr_eq_ok.2 h

theorem readFlag_eq_ok {f : Flag} {s : State} {b : Bool} : readFlag f s = .ok b ↔ s.flag f = some b := by
  unfold readFlag
  cases h : s.flag f <;> simp

/-! ## Memory -/

theorem checkAccess_eq_ok {a : Word} {n : Nat} {s : State} {u : Unit} :
    checkAccess a n s = .ok u ↔ accessOk a n s = true := by
  unfold checkAccess
  split <;> simp [*]

theorem accessOk_iff {a : Word} {n : Nat} {s : State} : accessOk a n s = true ↔ accessible a n s := by
  unfold accessOk accessible fitsBelowTop
  cases s.config.topWrap
  · simp only [reduceCtorEq, or_false]
    exact decide_eq_true_iff
  · simp

theorem memRead_eq_ok {a v : Word} {s : State} :
    memRead a s = .ok v ↔ accessOk a 8 s = true ∧ ∃ bs, readBytes a 0 s 8 = .ok bs ∧ joinBytes s.config.byteOrder bs = v := by
  simp only [memRead, bind_eq_ok, checkAccess_eq_ok, pure_eq_ok, Except.ok.injEq]
  simp

theorem memWrite_eq_ok {a v : Word} {s t : State} :
    memWrite a v s = .ok t ↔ accessOk a 8 s = true ∧ s.setBytes a (quadBytes s.config.byteOrder v) = t := by
  simp only [memWrite, bind_eq_ok, checkAccess_eq_ok, pure_eq_ok, Except.ok.injEq]
  simp

theorem memWriteByte_eq_ok {a : Word} {b : Byte} {s t : State} :
    memWriteByte a b s = .ok t ↔ accessOk a 1 s = true ∧ s.setBytes a [b] = t := by
  simp only [memWriteByte, bind_eq_ok, checkAccess_eq_ok, pure_eq_ok, Except.ok.injEq]
  simp

/-- Bytes written at an address leave every cell outside them as it was. -/
theorem setBytes_memSameOutside (s : State) (a : Word) (bs : List Byte) :
    MemSameOutside a bs.length s (s.setBytes a bs) := by
  intro x hx
  exact setCells_cell_outside s a x _ (by simpa using hx)

/-- A quadword written at an address leaves every cell outside its eight bytes as it was, in either byte order. -/
theorem setQuad_memSameOutside (s : State) (a : Word) (o : ByteOrder) (v : Word) :
    MemSameOutside a 8 s (s.setBytes a (quadBytes o v)) := by
  simpa using setBytes_memSameOutside s a (quadBytes o v)

/-! ## Locations -/

/-- Everything a `store` can do: write the register it names, or the eight bytes at its address. -/
theorem store_cases {op : Operand} {v : Word} {s t : State} (h : store op v s = .ok t) :
    (∃ r, op = .reg (.gpr r) ∧ t = s.setGpr r v) ∨
      (∃ a, op.isInd = true ∧ addr op s = .ok a ∧ accessOk a 8 s = true ∧
        t = s.setBytes a (quadBytes s.config.byteOrder v)) := by
  cases op with
  | imm i => simp [store] at h
  | reg r =>
    cases r with
    | gpr g => left; exact ⟨g, rfl, by simpa [store] using h.symm⟩
    | rip => simp [store] at h
  | ind1 d =>
    obtain ⟨a, ha, hw⟩ := bind_eq_ok.1 h
    exact .inr ⟨a, rfl, ha, (memWrite_eq_ok.1 hw).1, (memWrite_eq_ok.1 hw).2.symm⟩
  | ind2 r =>
    obtain ⟨a, ha, hw⟩ := bind_eq_ok.1 h
    exact .inr ⟨a, rfl, ha, (memWrite_eq_ok.1 hw).1, (memWrite_eq_ok.1 hw).2.symm⟩
  | ind3 d r =>
    obtain ⟨a, ha, hw⟩ := bind_eq_ok.1 h
    exact .inr ⟨a, rfl, ha, (memWrite_eq_ok.1 hw).1, (memWrite_eq_ok.1 hw).2.symm⟩

/-- Everything a `storeByte` can do: write the low byte of the register it names, or the lower byte of the
quadword at its address. -/
theorem storeByte_cases {op : Operand} {b : Byte} {s t : State} (h : storeByte op b s = .ok t) :
    (∃ r v, op = .reg (.gpr r) ∧ s.gpr r = some v ∧ t = s.setGpr r (withLowByte v b)) ∨
      (∃ a, op.isInd = true ∧ addr op s = .ok a ∧ accessOk (lowByteAddr a s) 1 s = true ∧
        t = s.setBytes (lowByteAddr a s) [b]) := by
  cases op with
  | imm i => simp [storeByte] at h
  | reg r =>
    cases r with
    | gpr g =>
      obtain ⟨v, hv, ht⟩ := bind_eq_ok.1 h
      left
      exact ⟨g, v, rfl, readGpr_eq_ok.1 hv, by simpa [pure_eq_ok] using ht.symm⟩
    | rip => simp [storeByte] at h
  | ind1 d =>
    obtain ⟨a, ha, hw⟩ := bind_eq_ok.1 h
    exact .inr ⟨a, rfl, ha, (memWriteByte_eq_ok.1 hw).1, (memWriteByte_eq_ok.1 hw).2.symm⟩
  | ind2 r =>
    obtain ⟨a, ha, hw⟩ := bind_eq_ok.1 h
    exact .inr ⟨a, rfl, ha, (memWriteByte_eq_ok.1 hw).1, (memWriteByte_eq_ok.1 hw).2.symm⟩
  | ind3 d r =>
    obtain ⟨a, ha, hw⟩ := bind_eq_ok.1 h
    exact .inr ⟨a, rfl, ha, (memWriteByte_eq_ok.1 hw).1, (memWriteByte_eq_ok.1 hw).2.symm⟩

/-- `addr` answers only for an `Ind` operand. -/
theorem addr_isInd {op : Operand} {s : State} {a : Word} (h : addr op s = .ok a) : op.isInd = true := by
  cases op <;> first | rfl | simp [addr] at h

/-- `addr` reads registers alone. -/
theorem addr_congr {op : Operand} {s t : State} (hr : ∀ r, t.gpr r = s.gpr r) (hp : t.rip = s.rip) :
    addr op t = addr op s := by
  cases op with
  | imm i => simp [addr, illFormedHere, hp]
  | reg r => simp [addr, illFormedHere, hp]
  | ind1 d => rfl
  | ind2 r => cases r <;> simp [addr, readReg, readGpr, hr, hp]
  | ind3 d r => cases r <;> simp [addr, readReg, readGpr, hr, hp]

theorem destGpr_eq_ok {op : Operand} {s : State} {r : Gpr} : destGpr op s = .ok r ↔ op = .reg (.gpr r) := by
  cases op with
  | reg q => cases q <;> simp [destGpr]
  | _ => simp [destGpr]

theorem amount_eq_ok {op : Operand} {s : State} {a : Word} :
    amount op s = .ok a ↔ op.isAmount = true ∧ val op s = .ok a := by
  unfold amount
  split <;> simp [*]

/-! ## The stack -/

theorem decrementRsp_eq_ok {s t : State} :
    decrementRsp s = .ok t ↔ ∃ sp, s.gpr .rsp = some sp ∧ s.setGpr .rsp (sp - 8) = t := by
  simp only [decrementRsp, bind_eq_ok, readGpr_eq_ok, pure_eq_ok, Except.ok.injEq]

theorem incrementRsp_eq_ok {s t : State} :
    incrementRsp s = .ok t ↔ ∃ sp, s.gpr .rsp = some sp ∧ s.setGpr .rsp (sp + 8) = t := by
  simp only [incrementRsp, bind_eq_ok, readGpr_eq_ok, pure_eq_ok, Except.ok.injEq]

theorem stackTop_eq_ok {s : State} {v : Word} :
    stackTop s = .ok v ↔ ∃ sp, s.gpr .rsp = some sp ∧ memRead sp s = .ok v := by
  simp only [stackTop, bind_eq_ok, readGpr_eq_ok]

theorem setStackTop_eq_ok {s t : State} {v : Word} :
    setStackTop v s = .ok t ↔
      ∃ sp, s.gpr .rsp = some sp ∧ accessOk sp 8 s = true ∧ s.setBytes sp (quadBytes s.config.byteOrder v) = t := by
  simp only [setStackTop, bind_eq_ok, readGpr_eq_ok, memWrite_eq_ok]

/-! ## The step -/

/-- Everything a step with a next state did: it was not at `HaltAddr`, it fetched an instruction that is well-formed,
and it ran it. -/
theorem step_next {s t : State} (h : step s = .next t) :
    s.rip ≠ s.haltAddr ∧ ∃ i, fetch s.rip s = .ok (some i) ∧ admits i (enterInstr s) = true ∧
      exec i (enterInstr s) = .next t := by
  unfold step at h
  split at h
  · cases h
  · rename_i hne
    refine ⟨hne, ?_⟩
    split at h
    · cases h
    · cases h
    · rename_i i hf
      split at h
      · rename_i ha
        exact ⟨i, hf, ha, h⟩
      · cases h

end Sys2Proof.Machine
end

