-- ==== Sys2Proof/Laws/Decode.lean ====
section
/-! SUPPORT. The decoder against the terms, what a fetch looks at, and the check of a program that is built or
loaded. -/

namespace Sys2Proof

/-- The term of an instruction reads back as it. -/
theorem decodeTerm_term (i : Instr) : decodeTerm i.term = some i := by cases i <;> rfl

/-- A term reads as the instruction whose term it is. -/
theorem decodeTerm_some {t : Term} {i : Instr} (h : decodeTerm t = some i) : t = i.term := by
  obtain ⟨op, os⟩ := t
  unfold decodeTerm at h
  split at h <;> simp_all <;> (subst h; rfl)

/-- A term reads as no instruction exactly where its operand count is wrong (R91). -/
theorem decodeTerm_none {t : Term} : decodeTerm t = none ↔ t.operands.length ≠ t.op.arity := by
  obtain ⟨op, os⟩ := t
  rcases os with _ | ⟨a, _ | ⟨b, _ | ⟨c, os⟩⟩⟩
  all_goals
    cases op <;> first
      | (rename_i cc; cases cc <;> simp [decodeTerm, Opcode.arity])
      | simp [decodeTerm, Opcode.arity]

/-- A term passes the check exactly where it is the term of a well-formed instruction (R96). -/
theorem Term.wellFormed_iff {p : RspOperandPolicy} {t : Term} :
    t.wellFormed p = true ↔ ∃ i : Instr, i.term = t ∧ i.wellFormed p = true := by
  unfold Term.wellFormed
  constructor
  · intro h
    split at h
    · rename_i i e
      exact ⟨i, (decodeTerm_some e).symm, h⟩
    · cases h
  · rintro ⟨i, rfl, h⟩
    rw [decodeTerm_term]
    exact h

namespace Machine

/-- No instruction of a program is refused exactly where every term passes the check. -/
theorem firstIllFormedLine_none {p : RspOperandPolicy} {k : Nat} {ts : List Term} :
    firstIllFormedLine p k ts = none ↔ ∀ t ∈ ts, t.wellFormed p = true := by
  induction ts generalizing k with
  | nil => simp [firstIllFormedLine]
  | cons t ts ih =>
    unfold firstIllFormedLine
    split <;> simp_all

/-- No cell of a memory is refused exactly where every instruction's term passes the check. -/
theorem firstIllFormedCell_none {p : RspOperandPolicy} {m : Memory} :
    firstIllFormedCell p m = none ↔ ∀ a t, (a, MemCell.insHead t) ∈ m → t.wellFormed p = true := by
  induction m with
  | nil => simp [firstIllFormedCell]
  | cons q m ih =>
    obtain ⟨a, c⟩ := q
    cases c with
    | byte b => simpa [firstIllFormedCell] using ih
    | insTail => simpa [firstIllFormedCell] using ih
    | insHead t =>
      simp only [firstIllFormedCell, List.mem_cons, Prod.mk.injEq, MemCell.insHead.injEq]
      split
      · rename_i h
        rw [ih]
        constructor
        · rintro hm b u (⟨-, rfl⟩ | hu)
          · exact h
          · exact hm b u hu
        · exact fun hm b u hu => hm b u (.inr hu)
      · rename_i h
        exact ⟨fun e => (nomatch e), fun hm => absurd (hm a t (.inl ⟨rfl, rfl⟩)) h⟩

/-- The eight cells a fetch reads. -/
theorem cells_eight (a : Word) (s : State) :
    s.cells a 8 = [s.cell a, s.cell (a + 1), s.cell (a+2), s.cell (a+3), s.cell (a+4), s.cell (a+5),
    s.cell (a+6), s.cell (a+7)] := by
  simp only [State.cells, BitVec.add_assoc]
  rfl

/-- The seven cells after the head, as a list and one by one. -/
theorem tails_iff (a : Word) (s : State) :
    [s.cell (a + 1), s.cell (a+2), s.cell (a+3), s.cell (a+4), s.cell (a+5), s.cell (a+6), s.cell (a+7)] =
    tailCells ↔ ∀ k, 1 ≤ k → k < 8 → s.cell (a + BitVec.ofNat 64 k) = some .insTail := by
  simp only [tailCells, List.replicate, List.cons.injEq, and_true]
  constructor
  · rintro ⟨h1,h2,h3,h4,h5,h6,h7⟩ k hk1 hk
    interval_cases k <;> assumption
  · intro h
    exact ⟨h 1 (by omega) (by omega), h 2 (by omega) (by omega), h 3 (by omega) (by omega),
        h 4 (by omega) (by omega), h 5 (by omega) (by omega), h 6 (by omega) (by omega), h 7 (by omega) (by omega)⟩

/-- What the decoder answers on the cells at an address, cell by cell. -/
theorem decode_cells (a : Word) (s : State) : decode (s.cells a 8) =
   match s.cell a with
   | some (.insHead t) =>
     if ∀ k, 1 ≤ k → k < 8 → s.cell (a + BitVec.ofNat 64 k) = some .insTail then
       match decodeTerm t with
       | some i => .ok i
       | none => .error .operandCount
     else .error .brokenTail
   | _ => .error .noHead := by
  rw [cells_eight]
  cases h : s.cell a with
  | none => rfl
  | some c =>
    cases c with
    | byte b => rfl
    | insTail => rfl
    | insHead t =>
      simp only [decode]
      by_cases ht : ∀ k, 1 ≤ k → k < 8 → s.cell (a + BitVec.ofNat 64 k) = some .insTail
      · rw [if_pos ((tails_iff a s).2 ht), if_pos ht] <;> cases decodeTerm t <;> rfl
      · rw [if_neg (fun h => ht ((tails_iff a s).1 h)), if_neg ht]

end Machine

end Sys2Proof
end

