-- ==== Sys2Proof/Laws/Exec.lean ====
section
/-! SUPPORT. What each instruction does when it answers a next state, one lemma per meaning, so that a proof about an
instruction never unfolds it. -/

namespace Sys2Proof.Machine

/-- Everything a logic instruction can do (R161 to R163). -/
theorem logicOp_ok {f : Word → Word → Word} {src dst : Operand} {s t : State} (h : logicOp f src dst s = .ok t) :
    ∃ x d u, val src s = .ok x ∧ val dst s = .ok d ∧ store dst (f d x) s = .ok u ∧
      t = u.withFlags (flagsOf false (f d x)) := by
  obtain ⟨x, hx, h⟩ := bind_eq_ok.1 h
  obtain ⟨d, hd, h⟩ := bind_eq_ok.1 h
  obtain ⟨u, hu, h⟩ := bind_eq_ok.1 h
  cases h
  exact ⟨x, d, u, hx, hd, hu, rfl⟩

/-- Everything a shift can do (R170 to R172, R174). -/
theorem shiftOp_ok {f : Word → Nat → Word} {g : Word → Bool} {amt dst : Operand} {s t : State}
    (h : shiftOp f g amt dst s = .ok t) :
    ∃ a n d u, amt.isAmount = true ∧ val amt s = .ok a ∧ shiftCount a s = .ok n ∧ val dst s = .ok d ∧
      store dst (f d n) s = .ok u ∧ t = shiftFlags n (f d n) (g d) u := by
  obtain ⟨a, ha, h⟩ := bind_eq_ok.1 h
  obtain ⟨n, hn, h⟩ := bind_eq_ok.1 h
  obtain ⟨d, hd, h⟩ := bind_eq_ok.1 h
  obtain ⟨u, hu, h⟩ := bind_eq_ok.1 h
  cases h
  obtain ⟨h1, h2⟩ := amount_eq_ok.1 ha
  exact ⟨a, n, d, u, h1, h2, hn, hd, hu, rfl⟩

/-- Everything `setb` can do (R173). -/
theorem setbOp_ok {cc : CondCode} {dst : Operand} {s t : State} (h : setbOp cc dst s = .ok t) :
    ∃ c, condition cc s = .ok c ∧ storeByte dst (if c then 1 else 0) s = .ok t :=
  bind_eq_ok.1 h

/-- Everything `j` can do (R214). -/
theorem jOp_ok {cc : CondCode} {src : Operand} {s t : State} (h : jOp cc src s = .ok t) :
    (condition cc s = .ok true ∧ ∃ a, val src s = .ok a ∧ t = s.setRip a) ∨ (condition cc s = .ok false ∧ t = s) := by
  obtain ⟨c, hc, h⟩ := bind_eq_ok.1 h
  cases c with
  | true =>
    obtain ⟨a, ha, h⟩ := bind_eq_ok.1 h
    cases h
    exact .inl ⟨hc, a, ha, rfl⟩
  | false =>
    cases h
    exact .inr ⟨hc, rfl⟩

/-- R140. -/
theorem execNegq_next {dst : Operand} {s t : State} (h : execNegq dst s = .next t) :
    ∃ d u, val dst s = .ok d ∧ store dst (0 - d) s = .ok u ∧
      t = u.withFlags (flagsOf (d == minInt) (0 - d)) := by
  obtain ⟨d, hd, h⟩ := bind_eq_ok.1 (outcome_eq_next.1 h)
  obtain ⟨u, hu, h⟩ := bind_eq_ok.1 h
  cases h
  exact ⟨d, u, hd, hu, rfl⟩

/-- R141. -/
theorem execAddq_next {src dst : Operand} {s t : State} (h : execAddq src dst s = .next t) :
    ∃ x d u, val src s = .ok x ∧ val dst s = .ok d ∧ store dst (d + x) s = .ok u ∧
      t = u.withFlags (flagsOf (ovfAdd d x) (d + x)) := by
  obtain ⟨x, hx, h⟩ := bind_eq_ok.1 (outcome_eq_next.1 h)
  obtain ⟨d, hd, h⟩ := bind_eq_ok.1 h
  obtain ⟨u, hu, h⟩ := bind_eq_ok.1 h
  cases h
  exact ⟨x, d, u, hx, hd, hu, rfl⟩

/-- R142. -/
theorem execSubq_next {src dst : Operand} {s t : State} (h : execSubq src dst s = .next t) :
    ∃ x d u, val src s = .ok x ∧ val dst s = .ok d ∧ store dst (d - x) s = .ok u ∧
      t = u.withFlags (flagsOf (ovfSub d x) (d - x)) := by
  obtain ⟨x, hx, h⟩ := bind_eq_ok.1 (outcome_eq_next.1 h)
  obtain ⟨d, hd, h⟩ := bind_eq_ok.1 h
  obtain ⟨u, hu, h⟩ := bind_eq_ok.1 h
  cases h
  exact ⟨x, d, u, hx, hd, hu, rfl⟩

/-- R143: the two flags it leaves undefined are free values of this step. -/
theorem execImulq_next {src dst : Operand} {s t : State} (h : execImulq src dst s = .next t) :
    ∃ r x d, dst = .reg (.gpr r) ∧ val src s = .ok x ∧ s.gpr r = some d ∧
      t = (s.setGpr r (d * x)).withFlags
        { of := some (ovfMul d x), sf := some (drawBit 0 s), zf := some (drawBit 1 s) } := by
  obtain ⟨r, hr, h⟩ := bind_eq_ok.1 (outcome_eq_next.1 h)
  obtain ⟨x, hx, h⟩ := bind_eq_ok.1 h
  obtain ⟨d, hd, h⟩ := bind_eq_ok.1 h
  cases h
  exact ⟨r, x, d, destGpr_eq_ok.1 hr, hx, readGpr_eq_ok.1 hd, rfl⟩

/-- R144. -/
theorem execIncq_next {dst : Operand} {s t : State} (h : execIncq dst s = .next t) :
    ∃ d u, val dst s = .ok d ∧ store dst (d + 1) s = .ok u ∧ t = u.withFlags (flagsOf (ovfAdd d 1) (d + 1)) := by
  obtain ⟨d, hd, h⟩ := bind_eq_ok.1 (outcome_eq_next.1 h)
  obtain ⟨u, hu, h⟩ := bind_eq_ok.1 h
  cases h
  exact ⟨d, u, hd, hu, rfl⟩

/-- R145. -/
theorem execDecq_next {dst : Operand} {s t : State} (h : execDecq dst s = .next t) :
    ∃ d u, val dst s = .ok d ∧ store dst (d - 1) s = .ok u ∧ t = u.withFlags (flagsOf (ovfSub d 1) (d - 1)) := by
  obtain ⟨d, hd, h⟩ := bind_eq_ok.1 (outcome_eq_next.1 h)
  obtain ⟨u, hu, h⟩ := bind_eq_ok.1 h
  cases h
  exact ⟨d, u, hd, hu, rfl⟩

/-- R160. -/
theorem execNotq_next {dst : Operand} {s t : State} (h : execNotq dst s = .next t) :
    ∃ d, val dst s = .ok d ∧ store dst (~~~d) s = .ok t :=
  bind_eq_ok.1 (outcome_eq_next.1 h)

/-- R190. -/
theorem execLeaq_next {src dst : Operand} {s t : State} (h : execLeaq src dst s = .next t) :
    ∃ r a, dst = .reg (.gpr r) ∧ addr src s = .ok a ∧ t = s.setGpr r a := by
  obtain ⟨r, hr, h⟩ := bind_eq_ok.1 (outcome_eq_next.1 h)
  obtain ⟨a, ha, h⟩ := bind_eq_ok.1 h
  cases h
  exact ⟨r, a, destGpr_eq_ok.1 hr, ha, rfl⟩

/-- R191. -/
theorem execMovq_next {src dst : Operand} {s t : State} (h : execMovq src dst s = .next t) :
    ∃ v, val src s = .ok v ∧ store dst v s = .ok t :=
  bind_eq_ok.1 (outcome_eq_next.1 h)

/-- R192: `SRC` is evaluated with the new `rsp`. -/
theorem execPushq_next {src : Operand} {s t : State} (h : execPushq src s = .next t) :
    ∃ sp v, s.gpr .rsp = some sp ∧ val src (s.setGpr .rsp (sp - 8)) = .ok v ∧
      accessOk (sp - 8) 8 s = true ∧ t = (s.setGpr .rsp (sp - 8)).setBytes (sp - 8) (quadBytes s.config.byteOrder v) := by
  obtain ⟨u, hu, h⟩ := bind_eq_ok.1 (outcome_eq_next.1 h)
  obtain ⟨sp, hsp, rfl⟩ := decrementRsp_eq_ok.1 hu
  obtain ⟨v, hv, h⟩ := bind_eq_ok.1 h
  obtain ⟨q, hq, hok, rfl⟩ := setStackTop_eq_ok.1 h
  obtain rfl : sp - 8 = q := by simpa using hq
  exact ⟨sp, v, hsp, hv, hok, rfl⟩

/-- R193: the increment is of the `rsp` that the store left. -/
theorem execPopq_next {dst : Operand} {s t : State} (h : execPopq dst s = .next t) :
    ∃ sp v u q, s.gpr .rsp = some sp ∧ memRead sp s = .ok v ∧ store dst v s = .ok u ∧ u.gpr .rsp = some q ∧
      t = u.setGpr .rsp (q + 8) := by
  obtain ⟨v, hv, h⟩ := bind_eq_ok.1 (outcome_eq_next.1 h)
  obtain ⟨sp, hsp, hr⟩ := stackTop_eq_ok.1 hv
  obtain ⟨u, hu, h⟩ := bind_eq_ok.1 h
  obtain ⟨q, hq, rfl⟩ := incrementRsp_eq_ok.1 h
  exact ⟨sp, v, u, q, hsp, hr, hu, hq, rfl⟩

/-- R210. -/
theorem execCmpq_next {src1 src2 : Operand} {s t : State} (h : execCmpq src1 src2 s = .next t) :
    ∃ x d, val src1 s = .ok x ∧ val src2 s = .ok d ∧ t = s.withFlags (flagsOf (ovfSub d x) (d - x)) := by
  obtain ⟨x, hx, h⟩ := bind_eq_ok.1 (outcome_eq_next.1 h)
  obtain ⟨d, hd, h⟩ := bind_eq_ok.1 h
  cases h
  exact ⟨x, d, hx, hd, rfl⟩

/-- R211. -/
theorem execJmp_next {src : Operand} {s t : State} (h : execJmp src s = .next t) :
    ∃ a, val src s = .ok a ∧ t = s.setRip a := by
  obtain ⟨a, ha, h⟩ := bind_eq_ok.1 (outcome_eq_next.1 h)
  cases h
  exact ⟨a, ha, rfl⟩

/-- R212: the pushed quadword is `rip`; the target is evaluated after the push. -/
theorem execCallq_next {src : Operand} {s t : State} (h : execCallq src s = .next t) :
    ∃ sp a, s.gpr .rsp = some sp ∧ accessOk (sp - 8) 8 s = true ∧
      val src ((s.setGpr .rsp (sp - 8)).setBytes (sp - 8) (quadBytes s.config.byteOrder s.rip)) = .ok a ∧
      t = ((s.setGpr .rsp (sp - 8)).setBytes (sp - 8) (quadBytes s.config.byteOrder s.rip)).setRip a := by
  obtain ⟨u, hu, h⟩ := bind_eq_ok.1 (outcome_eq_next.1 h)
  obtain ⟨sp, hsp, rfl⟩ := decrementRsp_eq_ok.1 hu
  obtain ⟨w, hw, h⟩ := bind_eq_ok.1 h
  obtain ⟨q, hq, hok, rfl⟩ := setStackTop_eq_ok.1 hw
  obtain rfl : sp - 8 = q := by simpa using hq
  obtain ⟨a, ha, h⟩ := bind_eq_ok.1 h
  cases h
  exact ⟨sp, a, hsp, hok, ha, rfl⟩

/-- R213. -/
theorem execRetq_next {s t : State} (h : execRetq s = .next t) :
    ∃ sp a, s.gpr .rsp = some sp ∧ memRead sp s = .ok a ∧ t = (s.setRip a).setGpr .rsp (sp + 8) := by
  obtain ⟨a, ha, h⟩ := bind_eq_ok.1 (outcome_eq_next.1 h)
  obtain ⟨sp, hsp, hr⟩ := stackTop_eq_ok.1 ha
  obtain ⟨q, hq, rfl⟩ := incrementRsp_eq_ok.1 h
  obtain rfl : sp = q := by simpa [hsp] using hq
  exact ⟨sp, a, hsp, hr, rfl⟩

/-- An instruction never answers a refusal: every one has its meaning. -/
theorem exec_ne_refused (i : Instr) (s : State) (r : Refusal) : exec i s ≠ .refused r := by
  cases i <;> exact outcome_ne_refused _ _

end Sys2Proof.Machine
end

