-- ==== Sys2Proof/Laws/Read.lean ====
section
/-! SUPPORT. Reading bytes from memory, byte by byte. -/

namespace Sys2Proof.Machine

/-- A register name reads exactly where it may be read. -/
theorem readReg_ok_iff {r : Reg} {s : State} : (∃ v, readReg r s = .ok v) ↔ regReadable r s := by
  cases r with
  | gpr g => simp [readReg, readGpr, regReadable]; cases s.gpr g <;> simp
  | rip => simp [readReg, regReadable]

/-- What a register name reads as. -/
theorem readReg_eq {r : Reg} {s : State} {v} (h : readReg r s = .ok v) : regValue r s = v := by
  cases r with
  | gpr g => simp [readReg, readGpr, regValue] at *; cases hh : s.gpr g <;> simp_all
  | rip => simpa [readReg, regValue] using h

/-- A cell gives a byte exactly where it is readable. -/
theorem readCell_ok_iff {a k s} : (∃ b, readCell a k s = .ok b) ↔ cellReadable a s := by
  unfold readCell cellReadable
  cases h : s.cell a with
  | none => simp
  | some c => cases c <;> simp <;> cases s.config.codeRead <;> simp

/-- A `Byte` cell gives its byte. -/
theorem readCell_eq_byte {a k s b} (h : s.cell a = some (.byte b)) : readCell a k s = .ok b := by
  simp [readCell, h]

/-- The address k + 1 further is k further than the next. -/
theorem add_ofNat_succ (a : Word) (k : Nat) : a + BitVec.ofNat 64 (k + 1) = (a + 1) + BitVec.ofNat 64 k := by
  rw [BitVec.ofNat_add, BitVec.add_assoc]; congr 1; exact BitVec.add_comm _ _

/-- One more byte. -/
theorem readBytes_succ (a : Word) (k : Nat) (s : State) (n : Nat) :
    readBytes a k s (n+1) = (readCell a k s >>= fun b => readBytes (a+1) (k+1) s n >>= fun bs => .ok (b :: bs)) := rfl

/-- Where `Byte` cells stand, a read returns them. -/
theorem readBytes_bytes (n) : ∀ (a : Word) k (s : State) (bs : List Byte) , bs.length = n →
    (∀ j (hj : j < bs.length), s.cell (a + BitVec.ofNat 64 j) = some (.byte bs[j])) → readBytes a k s n = .ok bs := by
  induction n with
  | zero => intro a k s bs hl _; simp at hl; subst hl; rfl
  | succ n ih =>
    intro a k s bs hl h
    cases bs with
    | nil => simp at hl
    | cons b bs =>
      have h0 := h 0 (by simp)
      simp at h0
      have := ih (a+1) (k+1) s bs (by simpa using hl) (by
        intro j hj
        have := h (j+1) (by simpa using hj)
        rwa [add_ofNat_succ] at this)
      rw [readBytes_succ, readCell_eq_byte h0, bind_ok, this, bind_ok]

/-- The first cell that fails is the read's fault. -/
theorem readBytes_fail (n) : ∀ (a : Word) k (s : State) (f : Fault) (m : Nat), m < n →
    (∀ j < m, cellReadable (a + BitVec.ofNat 64 j) s) → readCell (a + BitVec.ofNat 64 m) (k + m) s = .error f →
    readBytes a k s n = .error f := by
  induction n with
  | zero => intro a k s f m hm; omega
  | succ n ih =>
    intro a k s f m hm hr hf
    cases m with
    | zero => simp at hf; simp [readBytes, hf]
    | succ m =>
      obtain ⟨b, hb⟩ := (readCell_ok_iff (k := k)).2 (hr 0 (by omega))
      simp at hb
      have := ih (a+1) (k+1) s f m (by omega) (by
        intro j hj
        have := hr (j+1) (by omega)
        rwa [add_ofNat_succ] at this) (by
        rw [add_ofNat_succ] at hf
        rw [show k + 1 + m = k + (m + 1) by omega]
        exact hf)
      rw [readBytes_succ, hb, bind_ok, this, bind_error]

/-- A read answers exactly where every cell is readable. -/
theorem readBytes_ok_iff (n) : ∀ (a : Word) k (s : State), (∃ bs, readBytes a k s n = .ok bs) ↔
    ∀ j < n, cellReadable (a + BitVec.ofNat 64 j) s := by
  induction n with
  | zero => intro a k s; simp [readBytes]
  | succ n ih =>
    intro a k s
    constructor
    · rintro ⟨bs, h⟩
      obtain ⟨b, hb, h⟩ := bind_eq_ok.1 h
      obtain ⟨bs', hbs, h⟩ := bind_eq_ok.1 h
      intro j hj
      cases j with
      | zero => simpa using readCell_ok_iff.1 ⟨b, hb⟩
      | succ j => rw [add_ofNat_succ]; exact (ih _ _ _).1 ⟨_, hbs⟩ j (by omega)
    · intro h
      obtain ⟨b, hb⟩ := (readCell_ok_iff (k := k)).2 (h 0 (by omega))
      obtain ⟨bs, hbs⟩ := (ih (a+1) (k+1) s).2 (by
        intro j hj
        have := h (j+1) (by omega)
        rwa [add_ofNat_succ] at this)
      simp at hb
      exact ⟨b :: bs, by rw [readBytes_succ, hb, bind_ok, hbs, bind_ok]⟩

/-- Byte j of a read is what cell j gave. -/
theorem readBytes_get (n) : ∀ (a : Word) k (s : State) bs, readBytes a k s n = .ok bs →
    ∃ h : bs.length = n, ∀ j (hj : j < n), readCell (a + BitVec.ofNat 64 j) (k + j) s = .ok (bs[j]'(by omega)) := by
  induction n with
  | zero => intro a k s bs h; cases h; exact ⟨rfl, by intro j hj; omega⟩
  | succ n ih =>
    intro a k s bs h
    obtain ⟨b, hb, h⟩ := bind_eq_ok.1 h
    obtain ⟨bs', hbs, h⟩ := bind_eq_ok.1 h
    cases h
    obtain ⟨hl, hg⟩ := ih _ _ _ _ hbs
    refine ⟨by simp [hl], ?_⟩
    intro j hj
    cases j with
    | zero => simpa using hb
    | succ j => rw [add_ofNat_succ, show k + (j+1) = k+1+j by omega]; simpa using hg j (by omega)

/-- The byte of a quadword that stands k addresses above it. -/
theorem quadBytes_get (o : ByteOrder) (v : Word) (k : Nat) (h : k < (quadBytes o v).length) :
    (quadBytes o v)[k] = byteAt v (byteIndex o k) := by
  simp at h
  cases o <;> rcases k with _|_|_|_|_|_|_|_|k <;> first | rfl | omega

/-- Byte j of the concatenation of eight bytes. -/
theorem concat_get (bs : List Byte) (h : bs.length = 8) (j) (hj : j < 8) :
    (concatBytes bs).extractLsb' (8*j) 8 = bs[j] := by
  match bs, h with
  | [b0,b1,b2,b3,b4,b5,b6,b7], _ =>
    ext i hi
    simp only [concatBytes, BitVec.getElem_extractLsb', BitVec.getLsbD_or, BitVec.getLsbD_shiftLeft,
        BitVec.getLsbD_setWidth]
    interval_cases j <;> interval_cases i <;> simp

/-- Byte j of the quadword that eight bytes of memory make. -/
theorem join_get (o : ByteOrder) (bs : List Byte) (h : bs.length = 8) (j) (hj : j < 8) :
    (joinBytes o bs).extractLsb' (8*j) 8 = bs[byteIndex o j]'(h ▸ byteIndex_lt hj) := by
  cases o with
  | little => exact concat_get bs h j hj
  | big =>
    rw [joinBytes, concat_get _ (by simp [orderBytes, h]) j hj]
    simp [orderBytes, byteIndex, List.getElem_reverse, h]

/-- A byte just written is there. -/
theorem setBytes_inside (s : State) (a : Word) (bs : List Byte) (k) (hk : k < bs.length)
    (hn : bs.length ≤ 2^64) : (s.setBytes a bs).cell (a + BitVec.ofNat 64 k) = some (.byte bs[k]) := by
  have := setCells_cell_inside s a (bs.map .byte) k (by simpa using hk) (by simpa using hn)
  simpa [State.setBytes] using this

end Sys2Proof.Machine
end

