-- ==== Sys2Proof/Laws/Frame.lean ====
section
/-! SUPPORT. What a store leaves unchanged, and one induction over all instructions: a relation that the updates of a
register, `rip`, the flags and bytes of memory keep is kept by every instruction. -/

namespace Sys2Proof.Machine

/-- A store writes no flag. -/
theorem store_flags {op v s t} (h : store op v s = .ok t) : t.flags = s.flags := by
  rcases store_cases h with ⟨r, rfl, rfl⟩ | ⟨a, _, _, _, rfl⟩ <;> rfl

/-- The frame of a store of eight bytes, with or without new flags. -/
theorem destFrame_store {dst v s u} (h : store dst v s = .ok u) (f : Flags) :
    DestFrame dst 8 s (u.withFlags f) ∧ DestFrame dst 8 s u := by
  rcases store_cases h with ⟨r, rfl, rfl⟩ | ⟨a, hi, ha, _, rfl⟩
  · constructor
    all_goals
      refine ⟨fun q hq => setGpr_gpr_other _ _ (by simpa [destGprs] using hq), rfl, ⟨rfl, rfl, rfl⟩,
          fun _ x => rfl, ?_⟩
      intro a ha; simp [addr] at ha
  · constructor
    all_goals
      refine ⟨fun q hq => rfl, rfl, ⟨rfl, rfl, rfl⟩, fun h => (by rw [hi] at h; cases h), ?_⟩
      intro b hb
      rw [ha] at hb; cases hb
      exact setQuad_memSameOutside s a s.config.byteOrder v

/-- The frame of the write of `setb`. -/
theorem destFrame_storeByte {dst b s u} (h : storeByte dst b s = .ok u) :
    LowByteFrame dst s u ∧ u.flags = s.flags := by
  rcases storeByte_cases h with ⟨r, v, rfl, _, rfl⟩ | ⟨a, hi, ha, _, rfl⟩
  · refine ⟨⟨fun q hq => setGpr_gpr_other _ _ (by simpa [destGprs] using hq), rfl, ⟨rfl, rfl, rfl⟩,
      fun _ x => rfl, ?_⟩, rfl⟩
    intro a ha; simp [addr] at ha
  · refine ⟨⟨fun q hq => rfl, rfl, ⟨rfl, rfl, rfl⟩, fun h => (by rw [hi] at h; cases h), ?_⟩, rfl⟩
    intro b' hb
    rw [ha] at hb; cases hb
    exact setBytes_memSameOutside s (lowByteAddr a s) [b]

/-- `logicOp` behind its outcome. -/
theorem execLogic_next {f src dst s t} (h : outcome (logicOp f src dst s) = .next t) :
    ∃ x d u, val src s = .ok x ∧ val dst s = .ok d ∧ store dst (f d x) s = .ok u ∧ t =
    u.withFlags (flagsOf false (f d x)) := logicOp_ok (outcome_eq_next.1 h)

/-- What the flags of a shift change (R170 to R172). -/
theorem shiftFlags_eq (n r b u) : ∃ f, shiftFlags n r b u = u.withFlags f ∧ (n = 0 → f = u.flags) ∧ (n ≠ 1 →
    f.of = u.flags.of) := by
  unfold shiftFlags
  split
  · exact ⟨u.flags, rfl, fun _ => rfl, fun _ => rfl⟩
  · split
    · exact ⟨_, rfl, fun h => by omega, fun h => absurd ‹n = 1› h⟩
    · exact ⟨_, rfl, fun h => absurd h ‹_›, fun _ => rfl⟩

/-- A relation that the primitive updates of a state keep. -/
structure KeptByUpdates (R : State → State → Prop) : Prop where
  refl : ∀ s, R s s
  trans : ∀ {s t u}, R s t → R t u → R s u
  gpr : ∀ s r v, R s (s.setGpr r v)
  rip : ∀ s v, R s (s.setRip v)
  flags : ∀ s (f : Flags), (∀ g, (s.flag g).isSome → ((s.withFlags f).flag g).isSome) → R s (s.withFlags f)
  bytes : ∀ s a bs, R s (s.setBytes a bs)

variable {R : State → State → Prop} (G : KeptByUpdates R)
include G

/-- A store keeps it. -/
theorem related_of_store {dst v s u} (h : store dst v s = .ok u) : R s u := by
  rcases store_cases h with ⟨r, rfl, rfl⟩ | ⟨a, hi, ha, _, rfl⟩
  · exact G.gpr _ _ _
  · exact G.bytes _ _ _

/-- A store with the flags of its result keeps it. -/
theorem related_of_store_flags {dst v s u} (h : store dst v s =
    .ok u) (b r) : R s (u.withFlags (flagsOf b r)) := G.trans (related_of_store G h) (G.flags _ _
    (by intro g _; cases g <;> rfl))

/-- Every instruction keeps it. -/
theorem related_of_exec {i s t} (h : exec i s = .next t) : R s t := by
  cases i with
  | negq dst => obtain ⟨d, u, _, hu, rfl⟩ := execNegq_next h; exact related_of_store_flags G hu _ _
  | addq src dst => obtain ⟨x, d, u, _, _, hu, rfl⟩ := execAddq_next h; exact related_of_store_flags G hu _ _
  | subq src dst => obtain ⟨x, d, u, _, _, hu, rfl⟩ := execSubq_next h; exact related_of_store_flags G hu _ _
  | imulq src dst =>
    obtain ⟨r, x, d, rfl, _, _, rfl⟩ := execImulq_next h
    exact G.trans (G.gpr _ _ _) (G.flags _ _ (by intro g _; cases g <;> rfl))
  | incq dst => obtain ⟨d, u, _, hu, rfl⟩ := execIncq_next h; exact related_of_store_flags G hu _ _
  | decq dst => obtain ⟨d, u, _, hu, rfl⟩ := execDecq_next h; exact related_of_store_flags G hu _ _
  | notq dst => obtain ⟨d, _, hu⟩ := execNotq_next h; exact related_of_store G hu
  | andq src dst => obtain ⟨x, d, u, _, _, hu, rfl⟩ := execLogic_next h; exact related_of_store_flags G hu _ _
  | orq src dst => obtain ⟨x, d, u, _, _, hu, rfl⟩ := execLogic_next h; exact related_of_store_flags G hu _ _
  | xorq src dst => obtain ⟨x, d, u, _, _, hu, rfl⟩ := execLogic_next h; exact related_of_store_flags G hu _ _
  | sarq amt dst | shlq amt dst | shrq amt dst =>
    obtain ⟨a', n, d, u, _, h1, h2, _, hu, rfl⟩ := shiftOp_ok (outcome_eq_next.1 h)
    refine G.trans (related_of_store G hu) ?_
    unfold shiftFlags
    split
    · exact G.refl _
    · split
      · exact G.flags _ _ (by intro g _; cases g <;> rfl)
      · exact G.flags _ { u.flags with sf := _, zf := _ } (by intro g hg; cases g <;> first | rfl | exact hg)
  | setbEq dst | setbNeq dst | setbLt dst | setbLe dst | setbGt dst | setbGe dst =>
    obtain ⟨c, _, hu⟩ := setbOp_ok (outcome_eq_next.1 h)
    rcases storeByte_cases hu with ⟨r, v, rfl, _, rfl⟩ | ⟨a, hi, ha, _, rfl⟩
    · exact G.gpr _ _ _
    · exact G.bytes _ _ _
  | leaq src dst => obtain ⟨r, x, rfl, _, rfl⟩ := execLeaq_next h; exact G.gpr _ _ _
  | movq src dst => obtain ⟨d, _, hu⟩ := execMovq_next h; exact related_of_store G hu
  | pushq src =>
    obtain ⟨sp, v, h1, h2, h3, rfl⟩ := execPushq_next h
    exact G.trans (G.gpr _ _ _) (G.bytes _ _ _)
  | popq dst =>
    obtain ⟨sp, v, u, q, h1, h2, h3, h4, rfl⟩ := execPopq_next h
    exact G.trans (related_of_store G h3) (G.gpr _ _ _)
  | cmpq a b =>
    obtain ⟨x, d, _, _, rfl⟩ := execCmpq_next h
    exact G.flags _ _ (by intro g _; cases g <;> rfl)
  | jmp src => obtain ⟨a, _, rfl⟩ := execJmp_next h; exact G.rip _ _
  | callq src =>
    obtain ⟨sp, v, h1, h2, h3, rfl⟩ := execCallq_next h
    exact G.trans (G.gpr _ _ _) (G.trans (G.bytes _ _ _) (G.rip _ _))
  | retq =>
    obtain ⟨sp, a, h1, _, rfl⟩ := execRetq_next h
    exact G.trans (G.rip _ _) (G.gpr _ _ _)
  | jEq src | jNeq src | jLt src | jLe src | jGt src | jGe src =>
    rcases jOp_ok (outcome_eq_next.1 h) with ⟨_, a, _, rfl⟩ | ⟨_, rfl⟩
    · exact G.rip _ _
    · exact G.refl _
omit G

end Sys2Proof.Machine
end

