-- ==== Sys2Proof/Laws/Faults.lean ====
section
/-! SUPPORT. Which faults each operation and each well-formed instruction can raise. -/

namespace Sys2Proof.Machine

/-- What a fault that an instruction's own reads and writes raise says of the state (R244, R245, R247). -/
def Fine (s : State) : Fault → Prop
  | .addrWrap a => s.config.topWrap = .fault ∧ 2 ^ 64 < a.toNat + 8
  | .codeRead a => s.config.codeRead = .fault ∧ (s.cell a = some .insTail ∨ ∃ t, s.cell a = some (.insHead t))
  | .uninit (.reg r) => s.gpr r = none
  | .uninit (.flag g) => s.flag g = none
  | .uninit (.cell a) => s.cell a = none
  | _ => False

/-- `t` came from `s` by updates: every cell it changed holds a `Byte`, and what holds no value held none. -/
structure Back (s t : State) : Prop where
  c : t.config = s.config
  x : ∀ x, t.cell x = s.cell x ∨ ∃ b, t.cell x = some (.byte b)
  g : ∀ r, t.gpr r = none → s.gpr r = none
  f : ∀ r, t.flag r = none → s.flag r = none

theorem Fine.back {s t f} (b : Back s t) (h : Fine t f) : Fine s f := by
  obtain ⟨c, x, g, fl⟩ := b
  cases f with
  | fetch a => exact h
  | illFormed a => exact h
  | addrWrap a => simp only [Fine, c] at *; exact h
  | codeRead a =>
    simp only [Fine, c] at *
    refine ⟨h.1, ?_⟩
    rcases x a with e | ⟨b, e⟩
    · rw [← e]; exact h.2
    · rw [e] at h; simp at h
  | shiftRange a => exact h
  | uninit w =>
    cases w with
    | reg r => exact g r h
    | flag r => exact fl r h
    | cell a =>
      rcases x a with e | ⟨b, e⟩
      · simp only [Fine] at *; rw [← e]; exact h
      · simp only [Fine] at *; rw [e] at h; cases h

theorem goodBack : KeptByUpdates Back where
  refl s := ⟨rfl, fun _ => .inl rfl, fun _ h => h, fun _ h => h⟩
  trans a b := ⟨b.c.trans a.c, fun x => by
      rcases b.x x with h | h
      · rw [h]; exact a.x x
      · exact .inr h, fun r h => a.g r (b.g r h), fun r h => a.f r (b.f r h)⟩
  gpr s r v := ⟨rfl, fun _ => .inl rfl, fun q h => by
      by_cases e : q = r
      · subst e; rw [setGpr_gpr_same] at h; cases h
      · rwa [setGpr_gpr_other _ _ e] at h, fun _ h => h⟩
  rip s v := ⟨rfl, fun _ => .inl rfl, fun _ h => h, fun _ h => h⟩
  flags s f hf := ⟨rfl, fun _ => .inl rfl, fun _ h => h, fun g h => by
    by_contra hc
    have := hf g (Option.isSome_iff_ne_none.2 hc)
    rw [h] at this; cases this⟩
  bytes s a bs := by
    refine ⟨rfl, ?_, fun _ h => h, fun _ h => h⟩
    induction bs generalizing s a with
    | nil => intro x; exact .inl rfl
    | cons b bs ih =>
      intro x
      have : (s.setBytes a (b :: bs)) = (s.setBytes a [b]).setBytes (a+1) bs := rfl
      rw [this]
      rcases ih (s.setBytes a [b]) (a+1) x with h | h
      · rw [h]
        by_cases e : x = a
        · right; subst e; exact ⟨b, by simpa using setBytes_inside s x [b] 0 (by simp) (by simp)⟩
        · left
          refine setBytes_memSameOutside s a [b] x ?_
          rintro ⟨k, hk, e'⟩
          simp at hk; subst hk; simp at e'; exact e e'
      · exact .inr h

theorem readGpr_err {r s f} (h : readGpr r s = .error f) : Fine s f := by
  unfold readGpr at h
  cases e : s.gpr r <;> simp [e] at h
  subst h; exact e
theorem readFlag_err {r s f} (h : readFlag r s = .error f) : Fine s f := by
  unfold readFlag at h
  cases e : s.flag r <;> simp [e] at h
  subst h; exact e
theorem readReg_err {r s f} (h : readReg r s = .error f) : Fine s f := by
  cases r with
  | gpr g => exact readGpr_err h
  | rip => cases h
theorem check_err {a n s f} (hn : n = 8 ∨ n = 1) (h : checkAccess a n s = .error f) : Fine s f := by
  unfold checkAccess at h
  split at h
  · cases h
  rename_i h1
  cases h
  unfold accessOk at h1
  cases hp : s.config.topWrap <;> simp [hp] at h1
  refine ⟨hp, ?_⟩
  unfold fitsBelowTop memSize at h1
  have h1 := of_decide_eq_false h1
  rcases hn with rfl | rfl <;> omega
theorem readCell_err {a k s f} (h : readCell a k s = .error f) : Fine s f := by
  unfold readCell at h
  cases e : s.cell a with
  | none => simp [e] at h; subst h; exact e
  | some c =>
    cases c with
    | byte b => simp [e] at h
    | insHead t =>
      cases hp : s.config.codeRead <;> simp [e, hp] at h
      subst h; exact ⟨hp, .inr ⟨t, e⟩⟩
    | insTail =>
      cases hp : s.config.codeRead <;> simp [e, hp] at h
      subst h; exact ⟨hp, .inl e⟩
theorem readBytes_err (n) : ∀ {a k s f}, readBytes a k s n = .error f → Fine s f := by
  induction n with
  | zero => intro a k s f h; cases h
  | succ n ih =>
    intro a k s f h
    rw [readBytes_succ] at h
    rcases bind_eq_error.1 h with h | ⟨b, _, h⟩
    · exact readCell_err h
    · rcases bind_eq_error.1 h with h | ⟨b, _, h⟩
      · exact ih h
      · cases h
theorem memRead_err {a s f} (h : memRead a s = .error f) : Fine s f := by
  rcases bind_eq_error.1 h with h | ⟨b, _, h⟩
  · exact check_err (.inl rfl) h
  · rcases bind_eq_error.1 h with h | ⟨b, _, h⟩
    · exact readBytes_err _ h
    · cases h
theorem memWrite_err {a v s f} (h : memWrite a v s = .error f) : Fine s f := by
  rcases bind_eq_error.1 h with h | ⟨b, _, h⟩
  · exact check_err (.inl rfl) h
  · cases h
theorem memWriteByte_err {a v s f} (h : memWriteByte a v s = .error f) : Fine s f := by
  rcases bind_eq_error.1 h with h | ⟨b, _, h⟩
  · exact check_err (.inr rfl) h
  · cases h
theorem addr_err {op s f} (hi : op.isInd = true) (h : addr op s = .error f) : Fine s f := by
  cases op with
  | imm i => cases hi
  | reg r => cases hi
  | ind1 d => cases h
  | ind2 r => exact readReg_err h
  | ind3 d r =>
    rcases bind_eq_error.1 h with h | ⟨b, _, h⟩
    · exact readReg_err h
    · cases h
theorem val_err {op s f} (h : val op s = .error f) : Fine s f := by
  cases op with
  | imm i => cases h
  | reg r => exact readReg_err h
  | ind1 d => exact memRead_err h
  | ind2 r =>
    rcases bind_eq_error.1 h with h | ⟨b, _, h⟩
    · exact addr_err rfl h
    · exact memRead_err h
  | ind3 d r =>
    rcases bind_eq_error.1 h with h | ⟨b, _, h⟩
    · exact addr_err rfl h
    · exact memRead_err h
/-- A location (R112). -/
def loc : Operand → Bool
  | .imm _ => false
  | .reg .rip => false
  | _ => true
theorem store_err {op v s f} (hl : loc op = true) (h : store op v s = .error f) : Fine s f := by
  cases op with
  | imm i => cases hl
  | reg r => cases r <;> first | (cases hl; done) | cases h
  | ind1 d => exact memWrite_err h
  | ind2 r =>
    rcases bind_eq_error.1 h with h | ⟨b, _, h⟩
    · exact addr_err rfl h
    · exact memWrite_err h
  | ind3 d r =>
    rcases bind_eq_error.1 h with h | ⟨b, _, h⟩
    · exact addr_err rfl h
    · exact memWrite_err h
theorem storeByte_err {op v s f} (hl : loc op = true) (h : storeByte op v s = .error f) : Fine s f := by
  cases op with
  | imm i => cases hl
  | reg r =>
    cases r with
    | rip => cases hl
    | gpr g =>
      rcases bind_eq_error.1 h with h | ⟨b, _, h⟩
      · exact readGpr_err h
      · cases h
  | ind1 d => exact memWriteByte_err h
  | ind2 r =>
    rcases bind_eq_error.1 h with h | ⟨b, _, h⟩
    · exact addr_err rfl h
    · exact memWriteByte_err h
  | ind3 d r =>
    rcases bind_eq_error.1 h with h | ⟨b, _, h⟩
    · exact addr_err rfl h
    · exact memWriteByte_err h
theorem condEq_err {s f} (h : condEq s = .error f) : Fine s f := readFlag_err h
theorem condLt_err {s f} (h : condLt s = .error f) : Fine s f := by
  rcases bind_eq_error.1 h with h | ⟨b, _, h⟩
  · exact readFlag_err h
  · rcases bind_eq_error.1 h with h | ⟨b, _, h⟩
    · exact readFlag_err h
    · cases h
theorem condLe_err {s f} (h : condLe s = .error f) : Fine s f := by
  rcases bind_eq_error.1 h with h | ⟨b, _, h⟩
  · exact condLt_err h
  · rcases bind_eq_error.1 h with h | ⟨b, _, h⟩
    · exact readFlag_err h
    · cases h
theorem cond_err {cc s f} (h : condition cc s = .error f) : Fine s f := by
  cases cc with
  | eq => exact condEq_err h
  | lt => exact condLt_err h
  | le => exact condLe_err h
  | neq =>
    rcases bind_eq_error.1 h with h | ⟨b, _, h⟩
    · exact condEq_err h
    · cases h
  | gt =>
    rcases bind_eq_error.1 h with h | ⟨b, _, h⟩
    · exact condLe_err h
    · cases h
  | ge =>
    rcases bind_eq_error.1 h with h | ⟨b, _, h⟩
    · exact condLt_err h
    · cases h
theorem dec_err {s f} (h : decrementRsp s = .error f) : Fine s f := by
  rcases bind_eq_error.1 h with h | ⟨b, _, h⟩
  · exact readGpr_err h
  · cases h
theorem inc_err {s f} (h : incrementRsp s = .error f) : Fine s f := by
  rcases bind_eq_error.1 h with h | ⟨b, _, h⟩
  · exact readGpr_err h
  · cases h
theorem top_err {s f} (h : stackTop s = .error f) : Fine s f := by
  rcases bind_eq_error.1 h with h | ⟨b, _, h⟩
  · exact readGpr_err h
  · exact memRead_err h
theorem setTop_err {s v f} (h : setStackTop v s = .error f) : Fine s f := by
  rcases bind_eq_error.1 h with h | ⟨b, _, h⟩
  · exact readGpr_err h
  · exact memWrite_err h
theorem jump_err {src s f} (h : jumpTo src s = .error f) : Fine s f := by
  rcases bind_eq_error.1 h with h | ⟨b, _, h⟩
  · exact val_err h
  · cases h

/-- The three shifts. -/
def shiftI (i : Instr) : Prop := ∃ amt dst, i = .sarq amt dst ∨ i = .shlq amt dst ∨ i = .shrq amt dst

theorem wf_loc {p i dst} (h : Instr.wellFormed p i = true) (hd : i.written = some dst) : loc dst = true := by
  simp only [Instr.wellFormed, Bool.and_eq_true] at h
  obtain ⟨⟨⟨⟨_, h1⟩, _⟩, h2⟩, _⟩ := h
  simp only [Instr.immNotWritten, Instr.ripNotWritten, hd] at h1 h2
  cases dst with
  | imm => simp at h1
  | reg r => cases r <;> first | rfl | (simp at h2)
  | _ => rfl
theorem wf_kinds {p i} (h : Instr.wellFormed p i = true) : i.kindsOk = true := by
  simp only [Instr.wellFormed, Bool.and_eq_true] at h
  exact h.1.1.2

theorem un_err {f : Word → Word} {g : Word → State → State} {dst s e} (hl : loc dst = true)
  (h : outcome (do let d ← val dst s; let u ← store dst (f d) s; return g d u) = .fault e) : Fine s e := by
  rcases bind_eq_error.1 (outcome_eq_fault.1 h) with h | ⟨d, _, h⟩
  · exact val_err h
  · rcases bind_eq_error.1 h with h | ⟨b, _, h⟩
    · exact store_err hl h
    · cases h
theorem bin_err {f : Word → Word → Word} {g : Word → Word → State → State} {src dst s e} (hl : loc dst = true)
  (h : outcome (do let x ← val src s; let d ← val dst s; let u ← store dst (f x d) s; return g x d u) =
      .fault e) : Fine s e := by
  rcases bind_eq_error.1 (outcome_eq_fault.1 h) with h | ⟨x, _, h⟩
  · exact val_err h
  · rcases bind_eq_error.1 h with h | ⟨d, _, h⟩
    · exact val_err h
    · rcases bind_eq_error.1 h with h | ⟨b, _, h⟩
      · exact store_err hl h
      · cases h
theorem shift_err {f g amt dst s e} (hl : loc dst = true) (ha : amt.isAmount =
    true) (h : outcome (shiftOp f g amt dst s) = .fault e) :
   Fine s e ∨ ∃ a, e = .shiftRange a ∧ s.config.shiftRange = .fault ∧ 63 < a.toNat := by
  rcases bind_eq_error.1 (outcome_eq_fault.1 h) with h | ⟨x, _, h⟩
  · left; simp only [amount, ha, if_true] at h; exact val_err h
  · rcases bind_eq_error.1 h with h | ⟨d, _, h⟩
    · right
      unfold shiftCount at h
      split at h
      · cases h
      · split at h <;> cases h
        exact ⟨x, rfl, by assumption, by omega⟩
    · left
      rcases bind_eq_error.1 h with h | ⟨b, _, h⟩
      · exact val_err h
      · rcases bind_eq_error.1 h with h | ⟨b, _, h⟩
        · exact store_err hl h
        · cases h
theorem setb_err {cc dst s e} (hl : loc dst = true) (h : outcome (setbOp cc dst s) = .fault e) : Fine s e := by
  rcases bind_eq_error.1 (outcome_eq_fault.1 h) with h | ⟨x, _, h⟩
  · exact cond_err h
  · exact storeByte_err hl h
theorem j_err {cc dst s e} (h : outcome (jOp cc dst s) = .fault e) : Fine s e := by
  rcases bind_eq_error.1 (outcome_eq_fault.1 h) with h | ⟨x, _, h⟩
  · exact cond_err h
  · cases x
    · cases h
    · exact jump_err h
theorem dec_back {s u} (h : decrementRsp s = .ok u) : Back s u := by
  obtain ⟨sp, _, rfl⟩ := decrementRsp_eq_ok.1 h
  exact goodBack.gpr _ _ _

/-- Every fault of a well-formed instruction: one of its reads and writes, or a shift amount over 63. -/
theorem exec_err {p i s e} (hw : Instr.wellFormed p i = true) (h : exec i s = .fault e) :
   Fine s e ∨ (shiftI i ∧ ∃ a, e = .shiftRange a ∧ s.config.shiftRange = .fault ∧ 63 < a.toNat) := by
  cases i with
  | negq dst | incq dst | decq dst => exact .inl (un_err (wf_loc hw rfl) h)
  | notq dst =>
    left
    rcases bind_eq_error.1 (outcome_eq_fault.1 h) with h | ⟨d, _, h⟩
    · exact val_err h
    · exact store_err (wf_loc hw rfl) h
  | addq src dst | subq src dst | andq src dst | orq src dst | xorq src dst => exact .inl (bin_err (wf_loc hw rfl) h)
  | imulq src dst =>
    left
    have hk := wf_kinds hw
    have hl := wf_loc hw rfl
    rcases bind_eq_error.1 (outcome_eq_fault.1 h) with h | ⟨d, _, h⟩
    · cases dst with
      | reg r => cases r <;> first | (cases hl; done) | cases h
      | _ => first | (cases hl; done) | cases hk
    · rcases bind_eq_error.1 h with h | ⟨b, _, h⟩
      · exact val_err h
      · rcases bind_eq_error.1 h with h | ⟨b, _, h⟩
        · exact readGpr_err h
        · cases h
  | sarq amt dst =>
    rcases shift_err (wf_loc hw rfl) (wf_kinds hw) h with h | h
    · exact .inl h
    · exact .inr ⟨⟨_, _, .inl rfl⟩, h⟩
  | shlq amt dst =>
    rcases shift_err (wf_loc hw rfl) (wf_kinds hw) h with h | h
    · exact .inl h
    · exact .inr ⟨⟨_, _, .inr (.inl rfl)⟩, h⟩
  | shrq amt dst =>
    rcases shift_err (wf_loc hw rfl) (wf_kinds hw) h with h | h
    · exact .inl h
    · exact .inr ⟨⟨_, _, .inr (.inr rfl)⟩, h⟩
  | setbEq dst | setbNeq dst | setbLt dst | setbLe dst | setbGt dst | setbGe dst => exact .inl (setb_err
      (wf_loc hw rfl) h)
  | leaq src dst =>
    left
    have hk := wf_kinds hw
    have hl := wf_loc hw rfl
    rcases bind_eq_error.1 (outcome_eq_fault.1 h) with h | ⟨d, _, h⟩
    · have h2 : dst.isInd = false := by
        have : (Instr.leaq src dst).notTwoInd = true := by
          simp only [Instr.wellFormed, Bool.and_eq_true] at hw
          exact hw.1.1.1.1
        have hs : src.isInd = true := hk
        simp [Instr.notTwoInd, Instr.term, hs] at this
        exact this
      cases dst with
      | reg r => cases r <;> first | (cases hl; done) | cases h
      | _ => first | (cases hl; done) | cases h2
    · rcases bind_eq_error.1 h with h | ⟨b, _, h⟩
      · exact addr_err hk h
      · cases h
  | movq src dst =>
    left
    rcases bind_eq_error.1 (outcome_eq_fault.1 h) with h | ⟨d, _, h⟩
    · exact val_err h
    · exact store_err (wf_loc hw rfl) h
  | pushq src =>
    left
    rcases bind_eq_error.1 (outcome_eq_fault.1 h) with h | ⟨u, hu, h⟩
    · exact dec_err h
    · refine Fine.back (dec_back hu) ?_
      rcases bind_eq_error.1 h with h | ⟨b, _, h⟩
      · exact val_err h
      · exact setTop_err h
  | popq dst =>
    left
    rcases bind_eq_error.1 (outcome_eq_fault.1 h) with h | ⟨v, _, h⟩
    · exact top_err h
    · rcases bind_eq_error.1 h with h | ⟨u, hu, h⟩
      · exact store_err (wf_loc hw rfl) h
      · exact Fine.back (related_of_store goodBack hu) (inc_err h)
  | cmpq a b =>
    left
    rcases bind_eq_error.1 (outcome_eq_fault.1 h) with h | ⟨v, _, h⟩
    · exact val_err h
    · rcases bind_eq_error.1 h with h | ⟨u, hu, h⟩
      · exact val_err h
      · cases h
  | jmp src => exact .inl (jump_err (outcome_eq_fault.1 h))
  | callq src =>
    left
    rcases bind_eq_error.1 (outcome_eq_fault.1 h) with h | ⟨u, hu, h⟩
    · exact dec_err h
    · refine Fine.back (dec_back hu) ?_
      rcases bind_eq_error.1 h with h | ⟨w, hw, h⟩
      · exact setTop_err h
      · obtain ⟨_, _, _, rfl⟩ := setStackTop_eq_ok.1 hw
        exact Fine.back (goodBack.bytes _ _ _) (jump_err h)
  | retq =>
    left
    rcases bind_eq_error.1 (outcome_eq_fault.1 h) with h | ⟨v, _, h⟩
    · exact top_err h
    · exact Fine.back (goodBack.rip _ _) (inc_err h)
  | jEq src | jNeq src | jLt src | jLe src | jGt src | jGe src => exact .inl (j_err h)

end Sys2Proof.Machine
end

