-- ==== Sys2Proof/Laws/PerInstr.lean ====
section
/-! SUPPORT. One lemma per instruction for each family of statements named in LAWS.json. -/

namespace Sys2Proof.Laws.OperandCount

/-- The term of an instruction has the operand count of its opcode (30_encoding.md R90). -/
def Statement (i : Instr) : Prop := i.term.operands.length = i.term.op.arity

theorem negq (dst : Operand) : Statement (.negq dst) := rfl
theorem addq (src dst : Operand) : Statement (.addq src dst) := rfl
theorem subq (src dst : Operand) : Statement (.subq src dst) := rfl
theorem imulq (src dst : Operand) : Statement (.imulq src dst) := rfl
theorem incq (dst : Operand) : Statement (.incq dst) := rfl
theorem decq (dst : Operand) : Statement (.decq dst) := rfl
theorem notq (dst : Operand) : Statement (.notq dst) := rfl
theorem andq (src dst : Operand) : Statement (.andq src dst) := rfl
theorem orq (src dst : Operand) : Statement (.orq src dst) := rfl
theorem xorq (src dst : Operand) : Statement (.xorq src dst) := rfl
theorem sarq (amt dst : Operand) : Statement (.sarq amt dst) := rfl
theorem shlq (amt dst : Operand) : Statement (.shlq amt dst) := rfl
theorem shrq (amt dst : Operand) : Statement (.shrq amt dst) := rfl
theorem setbEq (dst : Operand) : Statement (.setbEq dst) := rfl
theorem setbNeq (dst : Operand) : Statement (.setbNeq dst) := rfl
theorem setbLt (dst : Operand) : Statement (.setbLt dst) := rfl
theorem setbLe (dst : Operand) : Statement (.setbLe dst) := rfl
theorem setbGt (dst : Operand) : Statement (.setbGt dst) := rfl
theorem setbGe (dst : Operand) : Statement (.setbGe dst) := rfl
theorem leaq (src dst : Operand) : Statement (.leaq src dst) := rfl
theorem movq (src dst : Operand) : Statement (.movq src dst) := rfl
theorem pushq (src : Operand) : Statement (.pushq src) := rfl
theorem popq (dst : Operand) : Statement (.popq dst) := rfl
theorem cmpq (src1 src2 : Operand) : Statement (.cmpq src1 src2) := rfl
theorem jmp (src : Operand) : Statement (.jmp src) := rfl
theorem callq (src : Operand) : Statement (.callq src) := rfl
theorem retq : Statement .retq := rfl
theorem jEq (src : Operand) : Statement (.jEq src) := rfl
theorem jNeq (src : Operand) : Statement (.jNeq src) := rfl
theorem jLt (src : Operand) : Statement (.jLt src) := rfl
theorem jLe (src : Operand) : Statement (.jLe src) := rfl
theorem jGt (src : Operand) : Statement (.jGt src) := rfl
theorem jGe (src : Operand) : Statement (.jGe src) := rfl

end Sys2Proof.Laws.OperandCount
end

