-- ==== Sys2Proof/Tests/Slice0.lean ====
section
/-! SUPPORT. Tests. The expected values are those of 95_test_vectors.md (derived there from the rules) or worked out by
hand from the rule a test's comment names. The last part holds, for each obligation with hypotheses, a concrete state
and operands that meet them. -/

namespace Sys2Proof.Tests

open Sys2Proof Sys2Proof.Machine

/-! ## Small states, and what an outcome shows -/

abbrev Out := Host.Outcome State Fault Refusal

/-- A general register as an operand. -/
def rg (r : Gpr) : Operand := .reg (.gpr r)

/-- State.reset with some registers. -/
def regs (rs : List (Gpr × Word)) : State := rs.foldl (fun s p => s.setGpr p.1 p.2) State.reset

/-- With a quadword in memory. -/
def quad (a v : Word) (s : State) : State := s.setBytes a (quadBytes s.config.byteOrder v)

/-- State.reset with the other byte order. -/
def big : State := { State.reset with config := { Config.defaults with byteOrder := .big } }

/-- With the three flags. -/
def fl (ov sf zf : Bool) (s : State) : State := s.withFlags { of := some ov, sf := some sf, zf := some zf }

def next? : Out → Option State
  | .next s => some s
  | .fault _ => none
  | .refused _ => none

def fault? : Out → Option Fault
  | .next _ => none
  | .fault f => some f
  | .refused _ => none

/-- A register and the flags after a step. -/
def regFlags (r : Gpr) (o : Out) : Option (Option Word × Flags) := (next? o).map fun s => (s.gpr r, s.flags)

/-- A register after a step. -/
def reg? (r : Gpr) (o : Out) : Option (Option Word) := (next? o).map fun s => s.gpr r

/-- `rip` after a step. -/
def rip? (o : Out) : Option Word := (next? o).map fun s => s.rip

/-- Eight cells after a step. -/
def cells? (a : Word) (o : Out) : Option (List (Option MemCell)) := (next? o).map fun s => s.cells a 8

/-- Bytes as cells. -/
def bytes (bs : List Byte) : List (Option MemCell) := bs.map fun b => some (.byte b)

/-- The flags written as three bits, in the order OF, SF, ZF of the tables. -/
def f3 (ov sf zf : Bool) : Flags := { of := some ov, sf := some sf, zf := some zf }

/-- The eight cells of a term (20_memory.md R53), written out. -/
def spell (op : Opcode) (os : List Operand) : List (Option MemCell) :=
  [some (.insHead ⟨op, os⟩), some .insTail, some .insTail, some .insTail, some .insTail, some .insTail,
    some .insTail, some .insTail]

/-! ## Decoding: every row of the opcode table, from its column `term` (30_encoding.md R81, R90) -/

theorem test_decode_arithmetic :
    decode (spell .negq [.ind2 .rip]) = .ok (.negq (.ind2 .rip)) ∧
    decode (spell .addq [.imm 2, rg .rax]) = .ok (.addq (.imm 2) (rg .rax)) ∧
    decode (spell .subq [.imm 3, rg .rax]) = .ok (.subq (.imm 3) (rg .rax)) ∧
    decode (spell .imulq [rg .rdi, rg .rax]) = .ok (.imulq (rg .rdi) (rg .rax)) ∧
    decode (spell .incq [rg .r08]) = .ok (.incq (rg .r08)) ∧
    decode (spell .decq [rg .rcx]) = .ok (.decq (rg .rcx)) := ⟨rfl, rfl, rfl, rfl, rfl, rfl⟩

theorem test_decode_logic :
    decode (spell .notq [.ind1 0x600000]) = .ok (.notq (.ind1 0x600000)) ∧
    decode (spell .andq [.imm 0xff, rg .rbx]) = .ok (.andq (.imm 0xff) (rg .rbx)) ∧
    decode (spell .orq [rg .r15, .ind3 8 (.gpr .rbp)]) = .ok (.orq (rg .r15) (.ind3 8 (.gpr .rbp))) ∧
    decode (spell .xorq [rg .rax, rg .rbx]) = .ok (.xorq (rg .rax) (rg .rbx)) := ⟨rfl, rfl, rfl, rfl⟩

theorem test_decode_bit_manipulation :
    decode (spell .sarq [.imm 1, rg .rax]) = .ok (.sarq (.imm 1) (rg .rax)) ∧
    decode (spell .shlq [rg .rcx, rg .rax]) = .ok (.shlq (rg .rcx) (rg .rax)) ∧
    decode (spell .shrq [.imm 8, rg .rdx]) = .ok (.shrq (.imm 8) (rg .rdx)) ∧
    decode (spell (.setb .eq) [rg .rax]) = .ok (.setbEq (rg .rax)) ∧
    decode (spell (.setb .neq) [rg .rax]) = .ok (.setbNeq (rg .rax)) ∧
    decode (spell (.setb .lt) [.ind1 0x600001]) = .ok (.setbLt (.ind1 0x600001)) ∧
    decode (spell (.setb .le) [rg .rax]) = .ok (.setbLe (rg .rax)) ∧
    decode (spell (.setb .gt) [rg .rax]) = .ok (.setbGt (rg .rax)) ∧
    decode (spell (.setb .ge) [rg .rax]) = .ok (.setbGe (rg .rax)) :=
  ⟨rfl, rfl, rfl, rfl, rfl, rfl, rfl, rfl, rfl⟩

theorem test_decode_data_movement :
    decode (spell .leaq [.ind3 8 (.gpr .rbx), rg .rbx]) = .ok (.leaq (.ind3 8 (.gpr .rbx)) (rg .rbx)) ∧
    decode (spell .movq [rg .rbx, .ind3 8 (.gpr .rax)]) = .ok (.movq (rg .rbx) (.ind3 8 (.gpr .rax))) ∧
    decode (spell .pushq [.imm 0x100]) = .ok (.pushq (.imm 0x100)) ∧
    decode (spell .popq [rg .rsp]) = .ok (.popq (rg .rsp)) := ⟨rfl, rfl, rfl, rfl⟩

theorem test_decode_control_flow :
    decode (spell .cmpq [.imm 1, rg .rdi]) = .ok (.cmpq (.imm 1) (rg .rdi)) ∧
    decode (spell .jmp [.imm 0x400010]) = .ok (.jmp (.imm 0x400010)) ∧
    decode (spell .callq [.imm 0x400020]) = .ok (.callq (.imm 0x400020)) ∧
    decode (spell .retq []) = .ok .retq ∧
    decode (spell (.j .eq) [.imm 0x400000]) = .ok (.jEq (.imm 0x400000)) ∧
    decode (spell (.j .neq) [.imm 0x400018]) = .ok (.jNeq (.imm 0x400018)) ∧
    decode (spell (.j .lt) [.imm 1]) = .ok (.jLt (.imm 1)) ∧
    decode (spell (.j .le) [.imm 0x400038]) = .ok (.jLe (.imm 0x400038)) ∧
    decode (spell (.j .gt) [.imm 1]) = .ok (.jGt (.imm 1)) ∧
    decode (spell (.j .ge) [.imm 1]) = .ok (.jGe (.imm 1)) :=
  ⟨rfl, rfl, rfl, rfl, rfl, rfl, rfl, rfl, rfl, rfl⟩

/-- R58: a list that does not spell a whole instruction is rejected by name. -/
theorem test_decode_rejects :
    decode [] = .error .noHead ∧ decode (bytes [0, 0, 0, 0, 0, 0, 0, 0]) = .error .noHead ∧
    decode tailCells = .error .noHead ∧ decode (some (.insHead ⟨.retq, []⟩) :: none :: tailCells) = .error .brokenTail ∧
    decode [some (.insHead ⟨.retq, []⟩)] = .error .brokenTail := ⟨rfl, rfl, rfl, rfl, rfl⟩

/-- R91: a wrong operand count is rejected by name. -/
theorem test_decode_operand_count :
    decode (spell .addq [.imm 2]) = .error .operandCount ∧ decode (spell .retq [.imm 2]) = .error .operandCount ∧
    decode (spell .negq []) = .error .operandCount ∧
    decode (spell (.j .eq) [.imm 1, .imm 2]) = .error .operandCount := ⟨rfl, rfl, rfl, rfl⟩

/-- R80, R82: no bits are an instruction. -/
theorem test_bits_spell_nothing : decodeTableWord 64 0 = none ∧ decodeTableWord 64 0xffffffffffffffff = none :=
  ⟨rfl, rfl⟩

/-! ## WellFormed: for each check an ill-formed term that it refuses -/

theorem test_refused_notTwoInd :
    (Instr.movq (.ind2 (.gpr .rax)) (.ind2 (.gpr .rbx))).notTwoInd = false ∧
    (Instr.movq (.ind2 (.gpr .rax)) (.ind2 (.gpr .rbx))).wellFormed .literal = false := ⟨rfl, rfl⟩

theorem test_refused_immNotWritten :
    (Instr.incq (.imm 5)).immNotWritten = false ∧ (Instr.incq (.imm 5)).wellFormed .literal = false := ⟨rfl, rfl⟩

theorem test_refused_kindsOk :
    (Instr.shlq (rg .rax) (rg .rbx)).kindsOk = false ∧ (Instr.shlq (rg .rax) (rg .rbx)).wellFormed .literal = false ∧
    (Instr.leaq (rg .rax) (rg .rbx)).kindsOk = false ∧ (Instr.leaq (rg .rax) (rg .rbx)).wellFormed .literal = false ∧
    (Instr.imulq (rg .rax) (.ind1 8)).kindsOk = false ∧
    (Instr.imulq (rg .rax) (.ind1 8)).wellFormed .literal = false := ⟨rfl, rfl, rfl, rfl, rfl, rfl⟩

theorem test_refused_ripNotWritten :
    (Instr.movq (rg .rax) (.reg .rip)).ripNotWritten = false ∧
    (Instr.movq (rg .rax) (.reg .rip)).wellFormed .literal = false := ⟨rfl, rfl⟩

theorem test_refused_rspOperandOk :
    (Instr.pushq (rg .rsp)).rspOperandOk .refuse = false ∧ (Instr.pushq (rg .rsp)).wellFormed .refuse = false ∧
    (Instr.callq (.ind2 (.gpr .rsp))).wellFormed .refuse = false ∧
    (Instr.popq (.ind3 8 (.gpr .rsp))).wellFormed .refuse = false ∧
    (Instr.pushq (rg .rsp)).wellFormed .literal = true ∧ (Instr.jmp (rg .rsp)).wellFormed .refuse = true :=
  ⟨rfl, rfl, rfl, rfl, rfl, rfl⟩

/-! ## Assembly (30_encoding.md R99 to R103; the lines are those of 95_test_vectors.md) -/

theorem test_asm :
    (Instr.movq (rg .rbx) (.ind3 8 (.gpr .rax))).asm = "movq %rbx, 8(%rax)" ∧
    (Instr.jLe (.imm 400)).asm = "j le, 400" ∧ (Instr.setbEq (rg .rax)).asm = "setb eq, %rax" ∧
    (Instr.jmp (.ind2 (.gpr .rax))).asm = "jmp *(%rax)" ∧ (Instr.cmpq (.imm 1) (rg .rdi)).asm = "cmpq $1, %rdi" ∧
    Instr.retq.asm = "retq" := by decide

/-! ## Arithmetic (95_test_vectors.md 2.1 to 2.5) -/

theorem test_negq_min : regFlags .rax (exec (.negq (rg .rax)) (regs [(.rax, minInt)])) =
    some (some 0x8000000000000000, f3 true true false) := by decide
theorem test_negq_max : regFlags .rax (exec (.negq (rg .rax)) (regs [(.rax, maxInt)])) =
    some (some 0x8000000000000001, f3 false true false) := by decide

theorem test_addq_overflow : regFlags .rax (exec (.addq (rg .rbx) (rg .rax)) (regs [(.rax, minInt), (.rbx, minInt)])) =
    some (some 0, f3 true false true) := by decide
theorem test_addq_no_carry_flag : regFlags .rax (exec (.addq (.imm 1) (rg .rax)) (regs [(.rax, 0xffffffffffffffff)])) =
    some (some 0, f3 false false true) := by decide

/-- The subtrahend is the first operand; C9's case, where negation and addition would give the wrong `OF`. -/
theorem test_subq_min_from_zero : regFlags .rax (exec (.subq (.imm minInt) (rg .rax)) (regs [(.rax, 0)])) =
    some (some 0x8000000000000000, f3 true true false) := by decide
theorem test_subq_order : regFlags .rax (exec (.subq (.imm 5) (rg .rax)) (regs [(.rax, 3)])) =
    some (some 0xfffffffffffffffe, f3 false true false) := by decide

/-- `SF` and `ZF` are draws; only the register and `OF` are compared. -/
theorem test_imulq_overflow :
    (regFlags .rax (exec (.imulq (.imm 2) (rg .rax)) (regs [(.rax, 0x4000000000000000)]))).map
      (fun p => (p.1, p.2.of)) = some (some 0x8000000000000000, some true) := by decide
theorem test_imulq_fits :
    (regFlags .rax (exec (.imulq (.imm 0xfffffffffffffffe) (rg .rax)) (regs [(.rax, 0x4000000000000000)]))).map
      (fun p => (p.1, p.2.of)) = some (some 0x8000000000000000, some false) := by decide

theorem test_incq_max : regFlags .rax (exec (.incq (rg .rax)) (regs [(.rax, maxInt)])) =
    some (some 0x8000000000000000, f3 true true false) := by decide
theorem test_incq_wrap : regFlags .rax (exec (.incq (rg .rax)) (regs [(.rax, 0xffffffffffffffff)])) =
    some (some 0, f3 false false true) := by decide
theorem test_decq_min : regFlags .rax (exec (.decq (rg .rax)) (regs [(.rax, minInt)])) =
    some (some 0x7fffffffffffffff, f3 true false false) := by decide
theorem test_decq_zero : regFlags .rax (exec (.decq (rg .rax)) (regs [(.rax, 0)])) =
    some (some 0xffffffffffffffff, f3 false true false) := by decide

/-! ## Logic (2.6) -/

theorem test_notq_keeps_flags :
    regFlags .rax (exec (.notq (rg .rax)) (fl true false true (regs [(.rax, 0x00ff00ff00ff00ff)]))) =
      some (some 0xff00ff00ff00ff00, f3 true false true) := by decide
theorem test_andq_clears_of : regFlags .rax (exec (.andq (.imm 0xff00ff00ff00ff00) (rg .rax))
    (fl true true true (regs [(.rax, 0x0ff00ff00ff00ff0)]))) = some (some 0x0f000f000f000f00, f3 false false false) := by
  decide
theorem test_orq : regFlags .rax (exec (.orq (.imm 0x5555555555555555) (rg .rax)) (regs [(.rax, 0xaaaaaaaaaaaaaaaa)])) =
    some (some 0xffffffffffffffff, f3 false true false) := by decide
theorem test_xorq_same : regFlags .rax (exec (.xorq (rg .rax) (rg .rax)) (regs [(.rax, 0x1234)])) =
    some (some 0, f3 false false true) := by decide

/-! ## Bit manipulation (2.8, 2.9). Before a shift `OF = 1`, `SF = 0`, `ZF = 0`. -/

theorem test_sarq_by_one : regFlags .rax (exec (.sarq (.imm 1) (rg .rax)) (fl true false false (regs [(.rax, minInt)]))) =
    some (some 0xc000000000000000, f3 false true false) := by decide
theorem test_sarq_by_63 : regFlags .rax (exec (.sarq (.imm 63) (rg .rax)) (fl true false false (regs [(.rax, minInt)]))) =
    some (some 0xffffffffffffffff, f3 true true false) := by decide
theorem test_shlq_by_zero : regFlags .rax (exec (.shlq (.imm 0) (rg .rax)) (fl true false false (regs [(.rax, 1)]))) =
    some (some 1, f3 true false false) := by decide
theorem test_shlq_by_one : regFlags .rax (exec (.shlq (.imm 1) (rg .rax))
    (fl true false false (regs [(.rax, 0xc000000000000000)]))) = some (some 0x8000000000000000, f3 false true false) := by
  decide
theorem test_shrq_by_one : regFlags .rax (exec (.shrq (.imm 1) (rg .rax))
    (fl true false false (regs [(.rax, 0x4000000000000000)]))) = some (some 0x2000000000000000, f3 false false false) := by
  decide
theorem test_shrq_by_64_faults : fault? (exec (.shrq (rg .rcx) (rg .rax)) (regs [(.rax, 1), (.rcx, 64)])) =
    some (.shiftRange 64) := by decide

theorem test_setbEq_low_byte : reg? .rax (exec (.setbEq (rg .rax)) (fl false false true (regs [(.rax, 0x1122334455667788)]))) =
    some (some 0x1122334455667701) := by decide
theorem test_setbNeq : reg? .rax (exec (.setbNeq (rg .rax)) (fl false false true (regs [(.rax, 0x1122334455667788)]))) =
    some (some 0x1122334455667700) := by decide
theorem test_setbLt_one_byte : cells? 0x600000 (exec (.setbLt (.ind1 0x600001))
    (fl false false false (quad 0x600000 0x1122334455667788 State.reset))) =
      some (bytes [0x88, 0x00, 0x66, 0x55, 0x44, 0x33, 0x22, 0x11]) := by decide
/-- Under big-endian the lower byte of the quadword at 0x600000 is the last of the eight (log 27). -/
theorem test_setbLt_big_endian : cells? 0x600000 (exec (.setbLt (.ind1 0x600000))
    (fl false true false (quad 0x600000 0x1122334455667788 big))) =
      some (bytes [0x11, 0x22, 0x33, 0x44, 0x55, 0x66, 0x77, 0x01]) := by decide
theorem test_setbLe : reg? .rax (exec (.setbLe (rg .rax)) (fl true true true (regs [(.rax, 0)]))) =
    some (some 1) := by decide
theorem test_setbGt : reg? .rax (exec (.setbGt (rg .rax)) (fl true true false (regs [(.rax, 0)]))) =
    some (some 1) := by decide
theorem test_setbGe : reg? .rax (exec (.setbGe (rg .rax)) (fl true false false (regs [(.rax, 0xff)]))) =
    some (some 0) := by decide

/-! ## Data movement (2.10) -/

theorem test_leaq_wraps : reg? .rax (exec (.leaq (.ind3 0xfffffffffffffff8 (.gpr .rbx)) (rg .rax)) (regs [(.rbx, 0)])) =
    some (some 0xfffffffffffffff8) := by decide
/-- At 0x400020 `rip` is already 0x400028. -/
theorem test_leaq_rip : reg? .rax (exec (.leaq (.ind3 0 .rip) (rg .rax)) ((regs []).setRip 0x400028)) =
    some (some 0x400028) := by decide
theorem test_movq_little_endian : cells? 0x600000 (exec (.movq (rg .rax) (.ind2 (.gpr .rbx)))
    (regs [(.rax, 0x0102030405060708), (.rbx, 0x600000)])) = some (bytes [8, 7, 6, 5, 4, 3, 2, 1]) := by decide
/-- The same number under big-endian (95_test_vectors.md P4: "every number of this program would differ"). -/
theorem test_movq_big_endian : cells? 0x600000 (exec (.movq (.imm 0x0102030405060708) (.ind1 0x600000)) big) =
    some (bytes [1, 2, 3, 4, 5, 6, 7, 8]) := by decide
theorem test_movq_unaligned : reg? .rcx (exec (.movq (.ind3 1 (.gpr .rbx)) (rg .rcx))
    ((quad 0x600000 0x0102030405060708 (regs [(.rbx, 0x600000)])).setBytes 0x600008 [0xff])) =
      some (some 0xff01020304050607) := by decide
theorem test_pushq_new_rsp : (cells? 0x7ffffff0 (exec (.pushq (rg .rsp)) (regs [(.rsp, 0x7ffffff8)]))) =
    some (bytes [0xf0, 0xff, 0xff, 0x7f, 0, 0, 0, 0]) := by decide
theorem test_pushq_past_top : fault? (exec (.pushq (.imm 1)) (regs [(.rsp, 4)])) =
    some (.addrWrap 0xfffffffffffffffc) := by decide
theorem test_popq : (next? (exec (.popq (rg .rbx)) (quad 0x7ffffff0 0x2a (regs [(.rsp, 0x7ffffff0)])))).map
    (fun s => (s.gpr .rbx, s.gpr .rsp)) = some (some 0x2a, some 0x7ffffff8) := by decide
theorem test_popq_rsp : reg? .rsp (exec (.popq (rg .rsp)) (quad 0x7ffffff0 0x100 (regs [(.rsp, 0x7ffffff0)]))) =
    some (some 0x108) := by decide

/-! ## Control flow (2.7, 2.11). The instruction stands at 0x400008, so `rip` is 0x400010. -/

theorem test_cmpq_second_case : (next? (exec (.cmpq (.imm 1) (rg .rax)) (regs [(.rax, minInt)]))).map
    (fun s => (s.gpr .rax, s.flags)) = some (some 0x8000000000000000, f3 true false false) := by decide
theorem test_cmpq_order : regFlags .rax (exec (.cmpq (.imm 5) (rg .rax)) (regs [(.rax, 3)])) =
    some (some 3, f3 false true false) := by decide

theorem test_jmp_indirect : rip? (exec (.jmp (.ind2 (.gpr .rax))) (quad 0x600000 0x400100 (regs [(.rax, 0x600000)]))) =
    some 0x400100 := by decide
theorem test_callq_pushes : cells? 0x7ffffff0 (exec (.callq (.imm 0x400100)) ((regs [(.rsp, 0x7ffffff8)]).setRip 0x400010)) =
    some (bytes [0x10, 0x00, 0x40, 0, 0, 0, 0, 0]) := by decide
theorem test_callq_jumps : (next? (exec (.callq (.imm 0x400100)) ((regs [(.rsp, 0x7ffffff8)]).setRip 0x400010))).map
    (fun s => (s.rip, s.gpr .rsp)) = some (0x400100, some 0x7ffffff0) := by decide
theorem test_retq : (next? (exec .retq (quad 0x7ffffff0 0x400010 (regs [(.rsp, 0x7ffffff0)])))).map
    (fun s => (s.rip, s.gpr .rsp)) = some (0x400010, some 0x7ffffff8) := by decide

theorem test_jEq_taken : rip? (exec (.jEq (.imm 0x400100)) (fl false false true State.reset)) = some 0x400100 := by decide
/-- An untaken jump does not evaluate its operand, which would fault here. -/
theorem test_jEq_untaken : rip? (exec (.jEq (.ind2 (.gpr .rax))) (fl false false false ((regs [(.rax, 0x600000)]).setRip 0x400010))) =
    some 0x400010 := by decide
theorem test_jNeq_untaken : rip? (exec (.jNeq (.imm 0x400100)) (fl false false true (State.reset.setRip 0x400010))) =
    some 0x400010 := by decide
theorem test_jLt_taken : rip? (exec (.jLt (.imm 0x400100)) (fl true false false State.reset)) = some 0x400100 := by decide
theorem test_jLe_taken : rip? (exec (.jLe (.imm 0x400100)) (fl false false true State.reset)) = some 0x400100 := by decide
theorem test_jGt_untaken : rip? (exec (.jGt (.imm 0x400100)) (fl true true true (State.reset.setRip 0x400010))) =
    some 0x400010 := by decide
theorem test_jGe_taken : rip? (exec (.jGe (.imm 0x400100)) (fl true true false State.reset)) = some 0x400100 := by decide

/-! ## The step (95_test_vectors.md P5) -/

/-- P5b: a program reads its own first instruction as data. -/
theorem test_step_code_read : fault? (step (State.reset.withFetchInstr (.movq (.ind1 0x400000) (rg .rax)))) =
    some (.codeRead 0x400000) := by decide
/-- P5e: two `Ind` operands. -/
theorem test_step_ill_formed : fault? (step (State.reset.withFetchInstr (.movq (.ind2 (.gpr .rax)) (.ind3 8 (.gpr .rax))))) =
    some (.illFormed 0x400000) := by decide
/-- P5g: the middle of an instruction is none. -/
theorem test_step_mid_instruction :
    fault? (step ((State.reset.withFetchInstr .retq).setRip 0x400004)) = some (.fetch 0x400004) := by decide
/-- R26: `rip` moves 8 further; P1's first instruction. -/
theorem test_step_movq : (next? (step (State.reset.withFetchInstr (.movq (.imm 5) (rg .rdi))))).map
    (fun s => (s.rip, s.gpr .rdi)) = some (0x400008, some 5) := by decide
/-- The host's words are no instructions: eight `Byte` cells raise `F_FETCH` (R58). -/
theorem test_step_word : fault? (step (State.reset.withFetchWord 64 0x0102030405060708)) = some (.fetch 0x400000) := by
  decide
/-- P3's `callq f` and the label's value (30_encoding.md R89). -/
theorem test_assemble_label :
    assemble 0x400000 [] [.instr .callq [.imm (.label 1)], .instr .retq [], .label 1, .instr .retq []] =
      some [⟨.callq, [.imm 0x400010]⟩, ⟨.retq, []⟩, ⟨.retq, []⟩] := by decide

/-- R96: a program with an ill-formed term, or a label that nothing defines, is refused when it is built. -/
theorem test_build_refuses :
    build .literal 0x400000 [] [.instr .retq [], .label 1, .instr .incq [.imm (.label 1)]] =
      .error (.illFormedLine 1) ∧
    build .literal 0x400000 [] [.instr .addq [.reg (.gpr .rax)]] = .error (.illFormedLine 0) ∧
    build .literal 0x400000 [] [.instr .jmp [.imm (.label 1)]] = .error .undefinedLabel ∧
    build .refuse 0x400000 [] [.instr .pushq [.reg (.gpr .rsp)]] = .error (.illFormedLine 0) := by decide
/-- The model's choice for a label defined twice (log 24) and for one after the last instruction (log 25). -/
theorem test_build_labels :
    build .literal 0x400000 [(1, 5)] [.label 1, .instr .jmp [.imm (.label 1)], .label 1, .instr .jmp [.imm (.label 2)],
      .label 2] = .ok [⟨.jmp, [.imm 0x400000]⟩, ⟨.jmp, [.imm 0x400010]⟩] := by decide

/-! ## The launch (70_reset_and_hazards.md) -/

/-- R272, R274, R275: State.reset is the launch with its values and nothing of its own in memory. -/
theorem test_reset_is_a_launch :
    ({ entry := Config.entry, rsp0 := Config.rsp0, regs0 := RegFile.reset, flags0 := State.reset.flags, mem0 := [],
       haltAddr := Config.haltAddr, config := Config.defaults } : Launch).load = .ok State.reset := by decide
/-- R275: a balanced `retq` of the entry procedure ends the run with `rsp = Rsp0 + 8`. -/
theorem test_retq_ends_the_run : (next? (step (State.reset.withFetchInstr .retq))).map
    (fun s => (s.rip, s.gpr .rsp)) = some (0xdead0000, some 0x80000000) := by decide
/-- R274: a stack slot that was never written. -/
theorem test_stack_below_holds_nothing : fault? (exec (.movq (.ind1 0x7ffffff0) (rg .rax)) State.reset) =
    some (.uninit (.cell 0x7ffffff0)) := by decide
/-- R61: a host's reads of the code bytes are draws of their own, and of no value that can be proved. -/
theorem test_host_reads_are_numbered :
    memReadByte 3 0x400000 { State.reset.withFetchInstr .retq with
      config := { Config.defaults with codeRead := .anyValue } } = .ok (Config.freeByte 0 11) := rfl

/-! ## Witnesses: for each obligation with hypotheses, a state and operands that meet them, clause by clause -/

/-- `rax` points at a quadword 7, `rsp` at a quadword 0x400100. -/
def w : State :=
  quad 0x600000 7 (quad 0x7ffffff8 0x400100 (regs [(.rax, 0x600000), (.rbx, 5), (.rcx, 1), (.rsp, 0x7ffffff8)]))

/-- The same, but `rdx`, `rsp` and the flags hold no value. -/
def wNone : State :=
  { w with regs := { w.regs with rdx := none, rsp := none }, flags := Flags.noValues }

/-- The same, under the other policies. -/
def wOther : State :=
  { w with config := { w.config with topWrap := .wrap, codeRead := .anyValue, shiftRange := .mask6, rspOperand := .refuse } }

/-- The same, with the third shift policy. -/
def wMath : State := { w with config := { w.config with shiftRange := .math } }

/-- The same quadwords under the other byte order. -/
def wBig : State := quad 0x600000 7 (quad 0x7ffffff8 0x400100 { w with config := { w.config with byteOrder := .big } })

/-- An instruction stands at `rip`. -/
def wInstr (i : Instr) : State := w.withFetchInstr i

/-- A term of the wrong count stands at `rip`. -/
def wBad : State := w.setCells w.rip (termCells ⟨.addq, [.imm 1]⟩)

theorem standsAt_wInstr (i : Instr) : StandsAt i (wInstr i).rip (wInstr i) := by
  have e : (wInstr i).rip = 0x400000 := rfl
  rw [e]
  refine ⟨.inl (by decide), rfl, fun k h1 h2 => ?_⟩
  interval_cases k <;> rfl

/-- The last instruction memory can hold, and under `wrap` one that crosses the top. -/
theorem witness_PlacedInstructionIsFetched :
    accessible 0xfffffffffffffff8 8 w ∧ accessible 0xfffffffffffffffc 8 wOther := ⟨.inl (by decide), .inr rfl⟩

theorem witness_FetchReturnsExactlyWhatStands :
    (w.rip ≠ w.haltAddr ∧ fetch w.rip w = .error (.fetch w.rip)) ∧ fetch wBad.rip wBad = .ok none ∧
    fetch 0xfffffffffffffff9 w = .error (.fetch 0xfffffffffffffff9) := ⟨⟨by decide, rfl⟩, rfl, rfl⟩

theorem witness_DecodeAcceptsOnlyEncodedInstructions :
    decode ((encode (.leaq (.ind1 0) (rg .r15))).map some) = .ok (.leaq (.ind1 0) (rg .r15)) := rfl

theorem witness_WellFormedIsTheOperandTable :
    (Instr.imulq (.ind1 0) (rg .rax)).wellFormed .literal = true ∧
    (Instr.addq (.ind1 0) (.ind1 0)).wellFormed .literal = false ∧
    (Instr.cmpq (.imm 1) (.imm 2)).wellFormed .literal = true ∧ (Instr.popq (rg .rsp)).wellFormed .refuse = false :=
  ⟨rfl, rfl, rfl, rfl⟩

theorem witness_StepRunsTheDecodedInstruction :
    (wInstr .retq).rip ≠ (wInstr .retq).haltAddr ∧ StandsAt .retq (wInstr .retq).rip (wInstr .retq) ∧
      Instr.retq.wellFormed (wInstr .retq).config.rspOperand = true := ⟨by decide, standsAt_wInstr _, rfl⟩

theorem witness_IllFormedTermFaults_count :
    wBad.rip ≠ wBad.haltAddr ∧ accessible wBad.rip 8 wBad ∧ wBad.cell wBad.rip = some (.insHead ⟨.addq, [.imm 1]⟩) ∧
      (∀ k, 1 ≤ k → k < 8 → wBad.cell (wBad.rip + BitVec.ofNat 64 k) = some .insTail) ∧
      (Term.mk .addq [.imm 1]).operands.length ≠ (Term.mk .addq [.imm 1]).op.arity := by
  refine ⟨by decide, .inl (by decide), rfl, fun k h1 h2 => ?_, by decide⟩
  interval_cases k <;> rfl

theorem witness_IllFormedTermFaults_kinds :
    (wInstr (.incq (.imm 1))).rip ≠ (wInstr (.incq (.imm 1))).haltAddr ∧
      StandsAt (.incq (.imm 1)) (wInstr (.incq (.imm 1))).rip (wInstr (.incq (.imm 1))) ∧
      (Instr.incq (.imm 1)).wellFormed (wInstr (.incq (.imm 1))).config.rspOperand = false :=
  ⟨by decide, standsAt_wInstr _, rfl⟩

/-- The launch of 95_test_vectors.md Part 3. -/
def launch : Launch :=
  { entry := 0x400000, rsp0 := 0x7ffffff8, regs0 := RegFile.noValues, flags0 := Flags.noValues,
    mem0 := Memory.layout [] 0x400000 [⟨.retq, []⟩], haltAddr := 0xdead0000, config := Config.defaults }

/-- A program that is built; a launch that is loaded, and one refused; and a step of the loaded one. -/
theorem witness_IllFormedTermFaults_load :
    build .literal 0x400000 [] [.label 1, .instr .callq [.imm (.label 1)]] = .ok [⟨.callq, [.imm 0x400000]⟩] ∧
    launch.load = .ok launch.start ∧ (∃ t, step launch.start = .next t ∧ Reaches launch.start t) ∧
    { launch with mem0 := Memory.layout [] 0x400000 [⟨.incq, [.imm 1]⟩] }.load = .error (.illFormedCell 0x400000) := by
  refine ⟨by decide, by decide, ⟨_, rfl, .tail .refl rfl⟩, by decide⟩

theorem witness_RunEndsExactlyAtHaltAddr :
    (w.setRip 0xdead0000).rip = (w.setRip 0xdead0000).haltAddr ∧ step (w.setRip 0xdead0000) = .refused .runEnded :=
  ⟨rfl, rfl⟩

/-- The last byte of the instruction at 0x400000 is the first of the write, and is the byte written. -/
theorem witness_OverwrittenInstructionIsGone :
    (∃ t, memWrite 0x400007 0 (wInstr .retq) = .ok t) ∧ (∃ y, inBytes 0x400000 8 y ∧ inBytes 0x400007 8 y) ∧
    (∃ t, memWriteByte 0x400007 0 (wInstr .retq) = .ok t) ∧ inBytes 0x400000 8 0x400007 :=
  ⟨⟨_, rfl⟩, ⟨0x400007, ⟨7, by decide, rfl⟩, ⟨0, by decide, rfl⟩⟩, ⟨_, rfl⟩, ⟨7, by decide, rfl⟩⟩

theorem witness_RegisterReadReturnsItsContents : w.gpr .rbx = some 5 ∧ wNone.gpr .rdx = none := ⟨rfl, rfl⟩

theorem witness_EffectiveAddressIsBasePlusDisplacement :
    readReg (.gpr .rax) w = .ok 0x600000 ∧ readReg .rip w = .ok 0x400000 ∧
    readReg (.gpr .rdx) wNone = .error (.uninit (.reg .rdx)) := ⟨rfl, rfl, rfl⟩

theorem witness_OperandValueByKind :
    (Operand.ind2 (.gpr .rax)).isInd = true ∧ addr (.ind2 (.gpr .rax)) w = .ok 0x600000 ∧
    addr (.ind2 (.gpr .rdx)) wNone = .error (.uninit (.reg .rdx)) := ⟨rfl, rfl, rfl⟩

/-- The first and last byte that can fail, and the two addresses about the top. -/
theorem witness_MemoryReadByteByByte :
    (accessible 0x600000 8 w ∧ ∀ k < 8, w.cell (0x600000 + BitVec.ofNat 64 k) =
      some (.byte ((7 : Word).extractLsb' (8 * k) 8))) ∧
    accessible 0xfffffffffffffff8 8 w ∧ ¬ accessible 0xfffffffffffffff9 8 w ∧
    w.cell 0x700000 = none ∧
    ((∀ j < 7, cellReadable (0x600001 + BitVec.ofNat 64 j) w) ∧ w.cell (0x600001 + BitVec.ofNat 64 7) = none) ∧
    (wInstr .retq).config.codeRead = .fault ∧ (wInstr .retq).cell 0x400000 = some (.insHead ⟨.retq, []⟩) ∧
    (wInstr .retq).cell 0x400001 = some .insTail := by
  refine ⟨⟨.inl (by decide), fun k hk => ?_⟩, .inl (by decide), ?_, rfl, ⟨fun j hj => ?_, rfl⟩, rfl, rfl, rfl⟩
  · interval_cases k <;> rfl
  · unfold accessible; decide
  · interval_cases j <;> exact .inl ⟨_, rfl⟩

theorem witness_MemoryWritePutsItsBytes :
    accessible 0xfffffffffffffff8 8 w ∧ ¬ accessible 0xfffffffffffffff9 8 w ∧ accessible 0xffffffffffffffff 8 wOther := by
  refine ⟨.inl (by decide), ?_, .inr rfl⟩
  unfold accessible
  decide

/-- A byte in the middle of a quadword, and two quadwords that share four bytes. -/
theorem witness_ReadsReturnTheLatestWriteOfEachByte :
    (∃ t, memWrite 0x600000 9 w = .ok t) ∧ (∃ t v, memWriteByte 0x600007 1 w = .ok t ∧
      memRead (0x600007 - BitVec.ofNat 64 7) t = .ok v) ∧
    (∃ t u, memWrite 0x600000 9 w = .ok t ∧ memWrite 0x600004 8 t = .ok u) ∧
    ¬ inBytes 0x600004 8 (0x600000 + BitVec.ofNat 64 3) := by
  refine ⟨⟨_, rfl⟩, ⟨_, _, rfl, rfl⟩, ⟨_, _, rfl, rfl⟩, ?_⟩
  rintro ⟨k, hk, h⟩
  revert h
  interval_cases k <;> decide

/-- The same three clauses under big-endian: the byte at the lowest address is bits 63 to 56. -/
theorem witness_big_endian :
    (∀ k < 8, wBig.cell (0x600000 + BitVec.ofNat 64 (byteIndex wBig.config.byteOrder k)) =
      some (.byte ((7 : Word).extractLsb' (8 * k) 8))) ∧ wBig.cell 0x600007 = some (.byte 7) ∧
    memRead 0x600000 wBig = .ok 7 ∧
    (∃ t v, memWriteByte 0x600000 1 wBig = .ok t ∧
      memRead (0x600000 - BitVec.ofNat 64 (byteIndex wBig.config.byteOrder 7)) t = .ok v ∧
      v = 0x0100000000000007) := by
  refine ⟨fun k hk => ?_, rfl, rfl, _, _, rfl, rfl, rfl⟩
  interval_cases k <;> rfl

theorem witness_StoreWritesTheLocation :
    (Operand.ind1 8).isInd = true ∧ addr (.ind1 8) w = .ok 8 ∧
    addr (.ind3 8 (.gpr .rdx)) wNone = .error (.uninit (.reg .rdx)) := ⟨rfl, rfl, rfl⟩

theorem witness_ReadableAndWritableFromTheState :
    Readable (.ind2 (.gpr .rax)) w ∧ Writable (.ind2 (.gpr .rax)) 8 w ∧ ¬ Readable (rg .rdx) wNone := by
  refine ⟨⟨rfl, .inl (by decide), fun k hk => ?_⟩, ⟨rfl, .inl (by decide)⟩, ?_⟩
  rotate_left
  · show ¬ (wNone.gpr .rdx).isSome = true
    decide
  have e : effectiveAddress (.ind2 (.gpr .rax)) w = 0x600000 := rfl
  rw [e]
  interval_cases k <;> exact .inl ⟨_, rfl⟩

theorem witness_ConditionCodesReadTheirFlags :
    w.flags.zf = some false ∧ w.flags.sf = some false ∧ w.flags.of = some false ∧
    condition .le wNone = .error (.uninit (.flag .sf)) := ⟨rfl, rfl, rfl, rfl⟩

theorem witness_ConditionCodesAreSignedComparisons :
    val (rg .rbx) w = .ok 5 ∧ val (.ind2 (.gpr .rax)) w = .ok 7 ∧
    (∃ t, exec (.cmpq (.ind2 (.gpr .rax)) (rg .rbx)) w = .next t) ∧
    (∃ t, exec (.subq (.ind2 (.gpr .rax)) (rg .rbx)) w = .next t) := ⟨rfl, rfl, ⟨_, rfl⟩, ⟨_, rfl⟩⟩

/-- A register and a memory destination that are read and written; a destination that cannot be read; and one that can
be read and not written. -/
theorem witness_unary :
    (val (rg .rbx) w = .ok 5 ∧ Writable (rg .rbx) 8 w) ∧
    (val (.ind2 (.gpr .rax)) w = .ok 7 ∧ Writable (.ind2 (.gpr .rax)) 8 w) ∧
    val (rg .rdx) wNone = .error (.uninit (.reg .rdx)) ∧
    (val (.imm 5) w = .ok 5 ∧ store (.imm 5) 0 w = .error (illFormedHere w)) :=
  ⟨⟨rfl, trivial⟩, ⟨rfl, rfl, .inl (by decide)⟩, rfl, rfl, rfl⟩

theorem witness_NegqResult : (val (rg .rbx) w = .ok 5 ∧ Writable (rg .rbx) 8 w) ∧
    val (rg .rdx) wNone = .error (.uninit (.reg .rdx)) := ⟨witness_unary.1, witness_unary.2.2.1⟩
theorem witness_IncqAndDecqResult : val (.ind2 (.gpr .rax)) w = .ok 7 ∧ Writable (.ind2 (.gpr .rax)) 8 w :=
  witness_unary.2.1
theorem witness_NotqResult : val (.ind2 (.gpr .rax)) w = .ok 7 ∧ Writable (.ind2 (.gpr .rax)) 8 w :=
  witness_unary.2.1

/-- `SRC` unreadable; `SRC` readable and `DEST` not; both readable and `DEST` written. -/
theorem witness_binary :
    val (rg .rdx) wNone = .error (.uninit (.reg .rdx)) ∧ val (.imm 1) wNone = .ok 1 ∧
    (val (rg .rbx) w = .ok 5 ∧ val (.ind2 (.gpr .rax)) w = .ok 7 ∧ Writable (.ind2 (.gpr .rax)) 8 w) :=
  ⟨rfl, rfl, rfl, rfl, rfl, .inl (by decide)⟩

theorem witness_AddqResult : val (rg .rbx) w = .ok 5 ∧ val (.ind2 (.gpr .rax)) w = .ok 7 ∧
    Writable (.ind2 (.gpr .rax)) 8 w := witness_binary.2.2
theorem witness_SubqResult : val (rg .rbx) w = .ok 5 ∧ val (.ind2 (.gpr .rax)) w = .ok 7 ∧
    Writable (.ind2 (.gpr .rax)) 8 w := witness_binary.2.2
theorem witness_LogicResult : val (rg .rbx) w = .ok 5 ∧ val (.ind2 (.gpr .rax)) w = .ok 7 ∧
    Writable (.ind2 (.gpr .rax)) 8 w := witness_binary.2.2

theorem witness_ImulqResult : (val (.ind2 (.gpr .rax)) w = .ok 7 ∧ w.gpr .rbx = some 5) ∧
    (val (.imm 1) wNone = .ok 1 ∧ wNone.gpr .rdx = none) ∧
    val (rg .rdx) wNone = .error (.uninit (.reg .rdx)) := ⟨⟨rfl, rfl⟩, ⟨rfl, rfl⟩, rfl⟩

/-- Amounts 0, 1, 63 and 64, and 64 under each policy. -/
theorem witness_shift_amounts :
    shiftsBy 0 0 w ∧ shiftsBy 1 1 w ∧ shiftsBy 63 63 w ∧ shiftsBy 64 0 wOther ∧ shiftsBy 64 64 wMath ∧
    (val (.imm 64) w = .ok 64 ∧ 63 < (64 : Word).toNat ∧ w.config.shiftRange = .fault) :=
  ⟨.inl ⟨by decide, rfl⟩, .inl ⟨by decide, rfl⟩, .inl ⟨by decide, rfl⟩, .inr (.inl ⟨by decide, rfl, rfl⟩),
    .inr (.inr ⟨by decide, rfl, rfl⟩), rfl, by decide, rfl⟩

theorem witness_SarqResult : (rg .rcx).isAmount = true ∧ val (rg .rcx) w = .ok 1 ∧ shiftsBy 1 1 w ∧
    val (.ind2 (.gpr .rax)) w = .ok 7 ∧ Writable (.ind2 (.gpr .rax)) 8 w :=
  ⟨rfl, rfl, .inl ⟨by decide, rfl⟩, rfl, rfl, .inl (by decide)⟩
theorem witness_ShlqResult : (Operand.imm 0).isAmount = true ∧ val (.imm 0) w = .ok 0 ∧ shiftsBy 0 0 w ∧
    val (rg .rbx) w = .ok 5 ∧ Writable (rg .rbx) 8 w := ⟨rfl, rfl, .inl ⟨by decide, rfl⟩, rfl, trivial⟩
theorem witness_ShrqResult : (Operand.imm 63).isAmount = true ∧ val (.imm 63) w = .ok 63 ∧ shiftsBy 63 63 w ∧
    val (rg .rbx) w = .ok 5 ∧ Writable (rg .rbx) 8 w := ⟨rfl, rfl, .inl ⟨by decide, rfl⟩, rfl, trivial⟩

theorem witness_ShiftAmountOver63ByPolicy :
    (Operand.imm 64).isAmount = true ∧ val (.imm 64) w = .ok 64 ∧ 63 < (64 : Word).toNat ∧
    w.config.shiftRange = .fault ∧ (val (.imm 64) wOther = .ok 64 ∧ wOther.config.shiftRange = .mask6) ∧
    (val (.imm 64) wMath = .ok 64 ∧ wMath.config.shiftRange = .math ∧ val (rg .rbx) wMath = .ok 5 ∧
      Writable (rg .rbx) 8 wMath) := ⟨rfl, rfl, by decide, rfl, ⟨rfl, rfl⟩, rfl, rfl, rfl, trivial⟩

theorem witness_SetbResult :
    condition .lt wNone = .error (.uninit (.flag .sf)) ∧ condition .lt w = .ok false ∧ w.gpr .rbx = some 5 ∧
    (condition .eq { wNone with flags := f3 false false true } = .ok true ∧
      { wNone with flags := f3 false false true }.gpr .rdx = none ∧
      addr (.ind2 (.gpr .rdx)) { wNone with flags := f3 false false true } = .error (.uninit (.reg .rdx))) ∧
    addr (.ind1 0xffffffffffffffff) w = .ok 0xffffffffffffffff ∧ w.config.byteOrder = .little ∧
    addr (.ind1 0xffffffffffffffff) wBig = .ok 0xffffffffffffffff ∧ wBig.config.byteOrder = .big :=
  ⟨rfl, rfl, rfl, ⟨rfl, rfl, rfl⟩, rfl, rfl, rfl, rfl⟩

theorem witness_LeaqResult : (Operand.ind3 8 (.gpr .rax)).isInd = true ∧ addr (.ind3 8 (.gpr .rax)) w = .ok 0x600008 ∧
    addr (.ind2 (.gpr .rdx)) wNone = .error (.uninit (.reg .rdx)) := ⟨rfl, rfl, rfl⟩

theorem witness_MovqResult :
    (val (rg .rbx) w = .ok 5 ∧ Writable (.ind1 0xfffffffffffffff8) 8 w) ∧
    val (rg .rdx) wNone = .error (.uninit (.reg .rdx)) ∧
    store (.ind1 0xfffffffffffffff9) 5 w = .error (.addrWrap 0xfffffffffffffff9) := ⟨⟨rfl, .inl (by decide)⟩, rfl, rfl⟩

/-- `rsp` of 0 pushes at the last quadword of memory; `rsp` of 7 would pass the top. -/
theorem witness_PushqResult :
    wNone.gpr .rsp = none ∧
    ((w.setGpr .rsp 0).gpr .rsp = some 0 ∧ val (rg .rbx) ((w.setGpr .rsp 0).setGpr .rsp (0 - 8)) = .ok 5 ∧
      accessible (0 - 8) 8 (w.setGpr .rsp 0)) ∧
    ((w.setGpr .rsp 7).gpr .rsp = some 7 ∧ ¬ accessible (7 - 8) 8 (w.setGpr .rsp 7)) ∧
    val (rg .rdx) (({ w with regs := { w.regs with rdx := none } } : State).setGpr .rsp (0x7ffffff8 - 8)) =
      .error (.uninit (.reg .rdx)) := by
  refine ⟨rfl, ⟨rfl, rfl, .inl (by decide)⟩, ⟨rfl, ?_⟩, rfl⟩
  unfold accessible
  decide

theorem witness_PopqResult :
    wNone.gpr .rsp = none ∧ (w.gpr .rsp = some 0x7ffffff8 ∧ memRead 0x7ffffff8 w = .ok 0x400100 ∧
      Writable (rg .rsp) 8 w ∧ Writable (.ind3 8 (.gpr .rsp)) 8 w) ∧
    memRead 0xfffffffffffffff9 (w.setGpr .rsp 0xfffffffffffffff9) = .error (.addrWrap 0xfffffffffffffff9) ∧
    store (.ind1 0xfffffffffffffff9) 0x400100 w = .error (.addrWrap 0xfffffffffffffff9) :=
  ⟨rfl, ⟨rfl, rfl, trivial, rfl, .inl (by decide)⟩, rfl, rfl⟩

theorem witness_CmpqResult : val (.imm 1) w = .ok 1 ∧ val (.imm 2) w = .ok 2 ∧
    val (rg .rdx) wNone = .error (.uninit (.reg .rdx)) := ⟨rfl, rfl, rfl⟩

theorem witness_JmpResult : val (.ind2 (.gpr .rsp)) w = .ok 0x400100 ∧
    val (rg .rdx) wNone = .error (.uninit (.reg .rdx)) := ⟨rfl, rfl⟩

theorem witness_CallqResult :
    wNone.gpr .rsp = none ∧ (w.gpr .rsp = some 0x7ffffff8 ∧ accessible (0x7ffffff8 - 8) 8 w ∧
      ∃ u, memWrite (0x7ffffff8 - 8) w.rip (w.setGpr .rsp (0x7ffffff8 - 8)) = .ok u ∧ val (rg .rbx) u = .ok 5 ∧
        val (.ind1 0x700000) u = .error (.uninit (.cell 0x700000))) ∧
    ((w.setGpr .rsp 7).gpr .rsp = some 7 ∧ ¬ accessible (7 - 8) 8 (w.setGpr .rsp 7)) := by
  refine ⟨rfl, ⟨rfl, .inl (by decide), _, rfl, rfl, rfl⟩, rfl, ?_⟩
  unfold accessible
  decide

theorem witness_RetqResult : wNone.gpr .rsp = none ∧ (w.gpr .rsp = some 0x7ffffff8 ∧ memRead 0x7ffffff8 w = .ok 0x400100) ∧
    memRead 0x7ffffff9 (w.setGpr .rsp 0x7ffffff9) = .error (.uninit (.cell 0x80000000)) := ⟨rfl, ⟨rfl, rfl⟩, rfl⟩

theorem witness_ConditionalJumpResult :
    condition .gt wNone = .error (.uninit (.flag .sf)) ∧ condition .eq w = .ok false ∧ condition .gt w = .ok true ∧
    val (rg .rbx) w = .ok 5 ∧ val (.ind1 0x700000) w = .error (.uninit (.cell 0x700000)) := ⟨rfl, rfl, rfl, rfl, rfl⟩

theorem witness_FrameOfArithmeticAndLogic :
    (∃ t, exec (.addq (rg .rbx) (.ind2 (.gpr .rax))) w = .next t) ∧ addr (.ind2 (.gpr .rax)) w = .ok 0x600000 ∧
    (∃ t, exec (.negq (rg .rbx)) w = .next t) ∧ (rg .rbx).isInd = false := ⟨⟨_, rfl⟩, rfl, ⟨_, rfl⟩, rfl⟩

theorem witness_FrameOfDestinationWithoutFlags :
    (∃ t, exec (.notq (rg .rbx)) w = .next t) ∧ (∃ t, exec (.movq (rg .rbx) (.ind2 (.gpr .rax))) w = .next t) ∧
    (∃ t, exec (Instr.setb .ge (.ind2 (.gpr .rax))) w = .next t) := ⟨⟨_, rfl⟩, ⟨_, rfl⟩, ⟨_, rfl⟩⟩

theorem witness_FrameOfShifts :
    (∃ t, exec (.shlq (.imm 0) (.ind2 (.gpr .rax))) w = .next t) ∧ val (.imm 0) w = .ok 0 ∧ shiftCount 0 w = .ok 0 ∧
    (∃ t, exec (.sarq (.imm 2) (rg .rbx)) w = .next t) ∧ val (.imm 2) w = .ok 2 ∧ shiftCount 2 w = .ok 2 :=
  ⟨⟨_, rfl⟩, rfl, rfl, ⟨_, rfl⟩, rfl, rfl⟩

theorem witness_FrameOfRegisterOnlyInstructions :
    (∃ t, exec (.imulq (.ind2 (.gpr .rax)) (rg .rbx)) w = .next t) ∧ (∃ t, exec (.leaq (.ind1 0) (rg .rbx)) w = .next t) ∧
    (∃ t, exec (.cmpq (.ind2 (.gpr .rax)) (rg .rbx)) w = .next t) := ⟨⟨_, rfl⟩, ⟨_, rfl⟩, ⟨_, rfl⟩⟩

theorem witness_FrameOfPushes :
    (∃ t, exec (.pushq (.ind2 (.gpr .rax))) w = .next t) ∧ (∃ t, exec (.callq (rg .rbx)) w = .next t) ∧
    w.gpr .rsp = some 0x7ffffff8 := ⟨⟨_, rfl⟩, ⟨_, rfl⟩, rfl⟩

theorem witness_FrameOfPopq :
    (∃ t, exec (.popq (.ind3 8 (.gpr .rsp))) w = .next t) ∧ addr (.ind3 8 (.gpr .rsp)) w = .ok 0x80000000 ∧
    (∃ t, exec (.popq (rg .rbx)) w = .next t) := ⟨⟨_, rfl⟩, rfl, ⟨_, rfl⟩⟩

theorem witness_FrameOfJumpsAndReturn :
    (∃ t, exec (.jmp (rg .rbx)) w = .next t) ∧ (∃ t, exec (Instr.j .gt (rg .rbx)) w = .next t) ∧
    (∃ t, exec (Instr.j .eq (rg .rbx)) w = .next t) ∧ (∃ t, exec .retq w = .next t) :=
  ⟨⟨_, rfl⟩, ⟨_, rfl⟩, ⟨_, rfl⟩, ⟨_, rfl⟩⟩

/-- A step that stores, from a state with canonical memory and every register and flag valued. -/
theorem witness_StepKeepsMemoryCanonical :
    (wInstr (.pushq (rg .rbx))).mem.wf = true ∧ ∃ t, step (wInstr (.pushq (rg .rbx))) = .next t := ⟨by decide, _, rfl⟩

theorem witness_NoStepCreatesInstructionCells : ∃ t, step (wInstr (.pushq (rg .rbx))) = .next t := ⟨_, rfl⟩

theorem witness_StepKeepsRegistersAndFlagsValued :
    (wInstr (.pushq (rg .rbx))).allValued ∧ (∃ t, step (wInstr (.pushq (rg .rbx))) = .next t) ∧
    (wInstr (.notq (.ind1 0x700000))).allValued ∧
    step (wInstr (.notq (.ind1 0x700000))) = .fault (.uninit (.cell 0x700000)) := by
  refine ⟨⟨fun r => ?_, fun f => ?_⟩, ⟨_, rfl⟩, ⟨fun r => ?_, fun f => ?_⟩, rfl⟩
  · cases r <;> rfl
  · cases f <;> rfl
  · cases r <;> rfl
  · cases f <;> rfl

theorem witness_StepKeepsTheLaunchParameters : ∃ t, step (wInstr (.incq (rg .rbx))) = .next t := ⟨_, rfl⟩

theorem witness_OnlyControlFlowWritesRip :
    (∃ t, exec (.jmp (.imm 5)) w = .next t ∧ t.rip ≠ w.rip) ∧ (∃ t, exec (.incq (rg .rbx)) w = .next t) :=
  ⟨⟨_, rfl, by decide⟩, ⟨_, rfl⟩⟩

theorem witness_RegistersChangeOnlyWhereNamed :
    (∃ t, exec (.incq (rg .rbx)) w = .next t ∧ t.gpr .rbx ≠ w.gpr .rbx) ∧
    (∃ t, exec (.popq (rg .rbx)) w = .next t ∧ t.gpr .rsp ≠ w.gpr .rsp) := ⟨⟨_, rfl, by decide⟩, ⟨_, rfl, by decide⟩⟩

/-- Each of the six faults is raised by some step. -/
theorem witness_FaultsSayWhatHappened :
    step w = .fault (.fetch 0x400000) ∧ step (wInstr (.incq (.imm 1))) = .fault (.illFormed 0x400000) ∧
    step (wInstr (.notq (.ind1 0xfffffffffffffff9))) = .fault (.addrWrap 0xfffffffffffffff9) ∧
    step (wInstr (.notq (.ind1 0x400007))) = .fault (.codeRead 0x400007) ∧
    step (wInstr (.shrq (.imm 64) (rg .rbx))) = .fault (.shiftRange 64) ∧
    step (wInstr (.notq (.ind1 0x600001))) = .fault (.uninit (.cell 0x600008)) ∧
    step (wNone.withFetchInstr (.notq (rg .rdx))) = .fault (.uninit (.reg .rdx)) ∧
    step (wNone.withFetchInstr (.jEq (.imm 0))) = .fault (.uninit (.flag .zf)) :=
  ⟨rfl, rfl, rfl, rfl, rfl, rfl, rfl, rfl⟩

theorem witness_PopAfterPushRestores : Gpr.rbx ≠ .rsp ∧ ∃ t, exec (.pushq (rg .rbx)) w = .next t := ⟨by decide, _, rfl⟩

theorem witness_ReturnAfterCallComesBack :
    ∃ t v : State, exec (.callq (.imm 0x400100)) w = .next t ∧ v.gpr .rsp = t.gpr .rsp ∧ v.mem = t.mem ∧ v.config = t.config ∧
      v.rip ≠ t.rip := by
  obtain ⟨t, h⟩ : ∃ t, exec (.callq (.imm 0x400100)) w = .next t := ⟨_, rfl⟩
  refine ⟨t, t.setRip (t.rip + 1), h, rfl, rfl, rfl, ?_⟩
  show t.rip + 1 ≠ t.rip
  bv_omega

theorem witness_LaunchStateAndItsReturn : accessible launch.rsp0 8 launch.start ∧
    ¬ inBytes launch.rsp0 8 0x400000 ∧ Gpr.rax ≠ .rsp := by
  refine ⟨.inl (by decide), ?_, by decide⟩
  rintro ⟨k, hk, h⟩
  revert h
  interval_cases k <;> decide

/-- Two instructions that fill the last sixteen bytes of memory. -/
theorem witness_LayoutPlacesInstructionsAndLabels :
    (0xfffffffffffffff0 : Word).toNat + 8 * [Instr.retq, Instr.retq].length ≤ 2 ^ 64 ∧
    1 < [Instr.retq, Instr.retq].length := by decide

end Sys2Proof.Tests
end

