-- ==== Sys2Proof/Proofs/Scope.lean ====
section
/-! PROOFS. The launch parameters and the state after reset (00_scope.md). -/

namespace Sys2Proof.Machine

/-! ## The launch parameters -/

/-- No primitive update of a state writes the model's own fields. -/
theorem ownSame_keptByUpdates : KeptByUpdates OwnSame where
  refl _ := ⟨rfl, rfl, rfl⟩
  trans := by
    rintro s t u ⟨halt, config, draws⟩ ⟨halt', config', draws'⟩
    exact ⟨halt'.trans halt, config'.trans config, draws'.trans draws⟩
  gpr _ _ _ := ⟨rfl, rfl, rfl⟩
  rip _ _ := ⟨rfl, rfl, rfl⟩
  flags _ _ _ := ⟨rfl, rfl, rfl⟩
  bytes _ _ _ := ⟨rfl, rfl, rfl⟩

/-- No instruction writes the model's own fields: a step's new draw number is that of `enterInstr`. -/
theorem exec_ownSame {i : Instr} {s t : State} (h : exec i s = .next t) : OwnSame s t :=
  related_of_exec ownSame_keptByUpdates h

/-- Settles O53: the draw number goes up where the instruction is entered, and the instruction itself keeps all three. -/
theorem stepKeepsTheLaunchParameters : Obligations.StepKeepsTheLaunchParameters := by
  intro s t h
  obtain ⟨-, i, -, -, hexec⟩ := step_next h
  simpa [OwnSame] using exec_ownSame hexec

/-! ## The state after reset -/

/-- A quadword of memory reads back as it was written, in either byte order (20_memory.md R54, R56, R57). -/
theorem memRead_setBytes_quadBytes {a : Word} {s : State} (v : Word) (ha : accessOk a 8 s = true) :
    memRead a (s.setBytes a (quadBytes s.config.byteOrder v)) = .ok v := by
  refine memRead_eq_ok.2 ⟨ha, _, readBytes_bytes 8 a 0 _ (quadBytes s.config.byteOrder v) (quadBytes_length _ _) ?_,
    joinBytes_quadBytes _ _⟩
  intro j hj
  refine setBytes_inside s a _ j hj ?_
  simp

/-- Memory after reset is the launch's write of `HaltAddr` at `Rsp0`, over a memory that holds nothing
(70_reset_and_hazards.md R274, R275). -/
theorem reset_eq_setBytes :
    State.reset =
      { State.reset with mem := [] }.setBytes Config.rsp0 (quadBytes .little State.reset.haltAddr) := by
  decide

/-- Every register and flag has a value after reset. -/
theorem reset_allValued : State.reset.allValued :=
  ⟨fun r => by cases r <;> rfl, fun f => by cases f <;> rfl⟩

/-- Outside the quadword at the top of the stack, memory after reset holds nothing. -/
theorem reset_cell_outside {x : Word} (hx : ¬ inBytes Config.rsp0 8 x) : State.reset.cell x = none := by
  rw [reset_eq_setBytes]
  exact setQuad_memSameOutside _ _ _ _ x hx

/-- The top of the stack after reset is `HaltAddr`. -/
theorem reset_memRead_rsp0 : memRead Config.rsp0 State.reset = .ok State.reset.haltAddr := by
  conv_lhs => rw [reset_eq_setBytes]
  exact memRead_setBytes_quadBytes (s := { State.reset with mem := [] }) _ (by decide)

/-- Memory after reset is canonical. -/
theorem reset_mem_wf : State.reset.mem.wf = true := by
  rw [reset_eq_setBytes]
  exact Memory.wf_setCells _ _ _ rfl

/-- Settles O52, from the launch's one write to memory. -/
theorem resetMeetsTheInvariants : Obligations.ResetMeetsTheInvariants :=
  ⟨reset_allValued, reset_mem_wf, ⟨Config.rsp0, rfl, reset_memRead_rsp0, fun _ => reset_cell_outside⟩, rfl⟩

end Sys2Proof.Machine
end

