-- ==== Sys2Proof/Proofs/State.lean ====
section
/-! PROOFS. Which registers an instruction changes (10_state.md R22, R23, R36). `rip` is one of the 17 names of a
register (30_encoding.md R86), so one frame over the names says it of `rip` and of the general registers. -/

namespace Sys2Proof

/-- The registers an instruction writes although no operand names them as its destination: `rsp` under the four stack
instructions, `rip` under the control flow (10_state.md R23, R36). -/
def Instr.implicitRegs : Instr → List Reg
  | .pushq _ | .popq _ => [.gpr .rsp]
  | .callq _ | .retq => [.gpr .rsp, .rip]
  | .jmp _ | .jEq _ | .jNeq _ | .jLt _ | .jLe _ | .jGt _ | .jGe _ => [.rip]
  | _ => []

theorem Instr.rip_mem_implicitRegs {i : Instr} (h : Reg.rip ∈ i.implicitRegs) :
    i = .retq ∨ ∃ src, i = .jmp src ∨ i = .callq src ∨ ∃ cc, i = Instr.j cc src := by
  cases i with
  | retq => exact .inl rfl
  | jmp src => exact .inr ⟨src, .inl rfl⟩
  | callq src => exact .inr ⟨src, .inr (.inl rfl)⟩
  | jEq src => exact .inr ⟨src, .inr (.inr ⟨.eq, rfl⟩)⟩
  | jNeq src => exact .inr ⟨src, .inr (.inr ⟨.neq, rfl⟩)⟩
  | jLt src => exact .inr ⟨src, .inr (.inr ⟨.lt, rfl⟩)⟩
  | jLe src => exact .inr ⟨src, .inr (.inr ⟨.le, rfl⟩)⟩
  | jGt src => exact .inr ⟨src, .inr (.inr ⟨.gt, rfl⟩)⟩
  | jGe src => exact .inr ⟨src, .inr (.inr ⟨.ge, rfl⟩)⟩
  | _ => simp [Instr.implicitRegs] at h

theorem Instr.gpr_mem_implicitRegs {i : Instr} {r : Gpr} (h : Reg.gpr r ∈ i.implicitRegs) :
    r = .rsp ∧ (i = .retq ∨ ∃ op, i = .pushq op ∨ i = .popq op ∨ i = .callq op) := by
  cases i with
  | pushq op => exact ⟨by simpa [Instr.implicitRegs] using h, .inr ⟨op, .inl rfl⟩⟩
  | popq op => exact ⟨by simpa [Instr.implicitRegs] using h, .inr ⟨op, .inr (.inl rfl)⟩⟩
  | callq op => exact ⟨by simpa [Instr.implicitRegs] using h, .inr ⟨op, .inr (.inr rfl)⟩⟩
  | retq => exact ⟨by simpa [Instr.implicitRegs] using h, .inl rfl⟩
  | _ => simp [Instr.implicitRegs] at h

namespace Machine

/-! ## The 17 names after each update -/

/-- What a register name holds; `rip` always holds a value (R113). -/
def State.reg (s : State) : Reg → Option Word
  | .gpr r => s.gpr r
  | .rip => some s.rip

@[simp] theorem reg_gpr (s : State) (r : Gpr) : s.reg (.gpr r) = s.gpr r := rfl
@[simp] theorem reg_rip (s : State) : s.reg .rip = some s.rip := rfl

@[simp] theorem withFlags_reg (s : State) (f : Flags) (q : Reg) : (s.withFlags f).reg q = s.reg q := by
  cases q <;> rfl

@[simp] theorem setBytes_reg (s : State) (a : Word) (bs : List Byte) (q : Reg) :
    (s.setBytes a bs).reg q = s.reg q := by
  cases q <;> rfl

@[simp] theorem setGpr_reg_other (s : State) {r : Gpr} {q : Reg} (v : Word) (h : q ≠ .gpr r) :
    (s.setGpr r v).reg q = s.reg q := by
  cases q with
  | gpr g => exact setGpr_gpr_other s v fun e => h (congrArg Reg.gpr e)
  | rip => rfl

@[simp] theorem setRip_reg_other (s : State) {q : Reg} (a : Word) (h : q ≠ .rip) : (s.setRip a).reg q = s.reg q := by
  cases q with
  | gpr g => rfl
  | rip => exact absurd rfl h

@[simp] theorem shiftFlags_reg (n : Nat) (r : Word) (b : Bool) (s : State) (q : Reg) :
    (shiftFlags n r b s).reg q = s.reg q := by
  obtain ⟨f, hf, -, -⟩ := shiftFlags_eq n r b s
  rw [hf, withFlags_reg]

/-! ## The frame of every instruction -/

theorem mem_destGprs {op : Operand} {r : Gpr} : r ∈ destGprs op ↔ op = .reg (.gpr r) := by
  cases op with
  | reg q => cases q <;> simp [destGprs, eq_comm]
  | _ => simp [destGprs]

theorem ne_gpr_of_not_dest {q : Reg} {r : Gpr} (hq : ∀ g ∈ destGprs (.reg (.gpr r)), q ≠ .gpr g) : q ≠ .gpr r :=
  hq r (mem_destGprs.2 rfl)

/-- A store changes no register but the general one its operand names. -/
theorem store_keeps_reg {dst : Operand} {v : Word} {s u : State} {q : Reg} (h : store dst v s = .ok u)
    (hq : ∀ g ∈ destGprs dst, q ≠ .gpr g) : u.reg q = s.reg q := by
  rcases store_cases h with ⟨r, rfl, rfl⟩ | ⟨a, -, -, -, rfl⟩
  · exact setGpr_reg_other s v (ne_gpr_of_not_dest hq)
  · exact setBytes_reg s a _ q

/-- The write of `setb` changes no register but the general one its operand names. -/
theorem storeByte_keeps_reg {dst : Operand} {b : Byte} {s u : State} {q : Reg} (h : storeByte dst b s = .ok u)
    (hq : ∀ g ∈ destGprs dst, q ≠ .gpr g) : u.reg q = s.reg q := by
  rcases storeByte_cases h with ⟨r, v, rfl, -, rfl⟩ | ⟨a, -, -, -, rfl⟩
  · exact setGpr_reg_other s _ (ne_gpr_of_not_dest hq)
  · exact setBytes_reg s _ _ q

/-- An instruction that completes changes no register name but the general register that is its written operand and
those it writes implicitly. -/
theorem exec_keeps_reg {i : Instr} {s t : State} {q : Reg} (h : exec i s = .next t)
    (hw : ∀ dst, i.written = some dst → ∀ g ∈ destGprs dst, q ≠ .gpr g) (hi : q ∉ i.implicitRegs) :
    t.reg q = s.reg q := by
  cases i with
  | negq dst => obtain ⟨d, u, -, hu, rfl⟩ := execNegq_next h; simpa using store_keeps_reg hu (hw dst rfl)
  | addq src dst => obtain ⟨x, d, u, -, -, hu, rfl⟩ := execAddq_next h; simpa using store_keeps_reg hu (hw dst rfl)
  | subq src dst => obtain ⟨x, d, u, -, -, hu, rfl⟩ := execSubq_next h; simpa using store_keeps_reg hu (hw dst rfl)
  | imulq src dst =>
    obtain ⟨r, x, d, rfl, -, -, rfl⟩ := execImulq_next h
    simp [ne_gpr_of_not_dest (hw _ rfl)]
  | incq dst => obtain ⟨d, u, -, hu, rfl⟩ := execIncq_next h; simpa using store_keeps_reg hu (hw dst rfl)
  | decq dst => obtain ⟨d, u, -, hu, rfl⟩ := execDecq_next h; simpa using store_keeps_reg hu (hw dst rfl)
  | notq dst => obtain ⟨d, -, hu⟩ := execNotq_next h; exact store_keeps_reg hu (hw dst rfl)
  | andq src dst | orq src dst | xorq src dst =>
    obtain ⟨x, d, u, -, -, hu, rfl⟩ := execLogic_next h
    simpa using store_keeps_reg hu (hw dst rfl)
  | sarq amt dst | shlq amt dst | shrq amt dst =>
    obtain ⟨a, n, d, u, -, -, -, -, hu, rfl⟩ := shiftOp_ok (outcome_eq_next.1 h)
    simpa using store_keeps_reg hu (hw dst rfl)
  | setbEq dst | setbNeq dst | setbLt dst | setbLe dst | setbGt dst | setbGe dst =>
    obtain ⟨c, -, hu⟩ := setbOp_ok (outcome_eq_next.1 h)
    exact storeByte_keeps_reg hu (hw dst rfl)
  | leaq src dst =>
    obtain ⟨r, a, rfl, -, rfl⟩ := execLeaq_next h
    exact setGpr_reg_other s a (ne_gpr_of_not_dest (hw _ rfl))
  | movq src dst => obtain ⟨v, -, hu⟩ := execMovq_next h; exact store_keeps_reg hu (hw dst rfl)
  | pushq src =>
    obtain ⟨sp, v, -, -, -, rfl⟩ := execPushq_next h
    have hsp : q ≠ .gpr .rsp := by simpa [Instr.implicitRegs] using hi
    simp [hsp]
  | popq dst =>
    obtain ⟨sp, v, u, p, -, -, hu, -, rfl⟩ := execPopq_next h
    have hsp : q ≠ .gpr .rsp := by simpa [Instr.implicitRegs] using hi
    simpa [hsp] using store_keeps_reg hu (hw dst rfl)
  | cmpq src1 src2 => obtain ⟨x, d, -, -, rfl⟩ := execCmpq_next h; exact withFlags_reg _ _ q
  | jmp src =>
    obtain ⟨a, -, rfl⟩ := execJmp_next h
    exact setRip_reg_other s a (by simpa [Instr.implicitRegs] using hi)
  | callq src =>
    obtain ⟨sp, a, -, -, -, rfl⟩ := execCallq_next h
    obtain ⟨hsp, hrip⟩ : q ≠ .gpr .rsp ∧ q ≠ .rip := by simpa [Instr.implicitRegs] using hi
    simp [hsp, hrip]
  | retq =>
    obtain ⟨sp, a, -, -, rfl⟩ := execRetq_next h
    obtain ⟨hsp, hrip⟩ : q ≠ .gpr .rsp ∧ q ≠ .rip := by simpa [Instr.implicitRegs] using hi
    simp [hsp, hrip]
  | jEq src | jNeq src | jLt src | jLe src | jGt src | jGe src =>
    rcases jOp_ok (outcome_eq_next.1 h) with ⟨-, a, -, rfl⟩ | ⟨-, rfl⟩
    · exact setRip_reg_other s a (by simpa [Instr.implicitRegs] using hi)
    · rfl

/-! ## The obligations -/

/-- Settles O54: `rip` is no destination, so the frame at the name `rip` leaves the implicit writes alone. -/
theorem onlyControlFlowWritesRip : Obligations.OnlyControlFlowWritesRip := by
  intro i s t h
  by_cases hi : Reg.rip ∈ i.implicitRegs
  · exact .inr (Instr.rip_mem_implicitRegs hi)
  · exact .inl (by simpa using exec_keeps_reg h (fun _ _ _ _ => Reg.noConfusion) hi)

/-- Settles O55: the frame at the name of a general register. -/
theorem registersChangeOnlyWhereNamed : Obligations.RegistersChangeOnlyWhereNamed := by
  intro i s t r h hne
  by_cases hi : Reg.gpr r ∈ i.implicitRegs
  · exact .inr (Instr.gpr_mem_implicitRegs hi)
  · by_contra hnot
    refine hne (exec_keeps_reg h (fun dst hdst g hg e => hnot (.inl ?_)) hi)
    cases e
    rw [hdst, mem_destGprs.1 hg]

end Machine

end Sys2Proof
end

/-! PROOFS. Memory (20_memory.md): what a quadword read and write do byte by byte, what stands where a fetch looks, and
what every step keeps of memory. -/

namespace Sys2Proof.Machine

/-! ## Access -/

/-- One byte never passes the top (20_memory.md R60). -/
theorem accessible_one (a : Word) (s : State) : accessible a 1 s := .inl a.isLt

theorem checkAccess_of_accessible {a : Word} {n : Nat} {s : State} (h : accessible a n s) :
    checkAccess a n s = .ok () :=
  checkAccess_eq_ok.2 (accessOk_iff.2 h)

theorem checkAccess_of_not_accessible {a : Word} {n : Nat} {s : State} (h : ¬ accessible a n s) :
    checkAccess a n s = .error (.addrWrap a) :=
  if_neg fun hok => h (accessOk_iff.1 hok)

/-! ## Writing bytes -/

/-- Every address that a write covers holds a `Byte` after it. -/
theorem setBytes_cell_is_byte (s : State) {x y : Word} {bs : List Byte} (hn : bs.length ≤ 2 ^ 64)
    (h : inBytes x bs.length y) : ∃ b, (s.setBytes x bs).cell y = some (.byte b) := by
  obtain ⟨k, hk, rfl⟩ := h
  exact ⟨bs[k], setBytes_inside s x bs k hk hn⟩

theorem setBytes_one_cell (s : State) (a : Word) (b : Byte) : (s.setBytes a [b]).cell a = some (.byte b) := by
  simpa using setBytes_inside s a [b] 0 (by simp) (by simp)

/-- Byte `k` of a quadword stands `byteIndex k` above its address (20_memory.md R54, R57). -/
theorem setQuad_cell (s : State) (a v : Word) (o : ByteOrder) {k : Nat} (hk : k < 8) :
    (s.setBytes a (quadBytes o v)).cell (a + BitVec.ofNat 64 (byteIndex o k)) =
      some (.byte (v.extractLsb' (8 * k) 8)) := by
  have hi : byteIndex o k < (quadBytes o v).length := by simpa using byteIndex_lt hk
  rw [setBytes_inside s a _ _ hi (by simp), quadBytes_get, byteIndex_byteIndex hk]
  rfl

theorem memWrite_of_accessible {a : Word} (v : Word) {s : State} (h : accessible a 8 s) :
    memWrite a v s = .ok (s.setBytes a (quadBytes s.config.byteOrder v)) :=
  memWrite_eq_ok.2 ⟨accessOk_iff.2 h, rfl⟩

theorem memWrite_of_not_accessible {a : Word} (v : Word) {s : State} (h : ¬ accessible a 8 s) :
    memWrite a v s = .error (.addrWrap a) := by
  rw [memWrite, checkAccess_of_not_accessible h, bind_error]

theorem memWriteByte_ok (a : Word) (b : Byte) (s : State) : memWriteByte a b s = .ok (s.setBytes a [b]) :=
  memWriteByte_eq_ok.2 ⟨accessOk_iff.2 (accessible_one a s), rfl⟩

/-- Settles O14: the write is `setBytes`, whose cells and frame the lemmas above say. -/
theorem memoryWritePutsItsBytes : Obligations.MemoryWritePutsItsBytes := by
  intro a v b s
  refine ⟨fun h => ?_, memWrite_of_not_accessible v, ?_⟩
  · exact ⟨_, memWrite_of_accessible v h, fun k hk => setQuad_cell s a v _ hk, setQuad_memSameOutside s a _ v,
      rfl, rfl, rfl, rfl, rfl, rfl⟩
  · exact ⟨_, memWriteByte_ok a b s, setBytes_one_cell s a b, setBytes_memSameOutside s a [b],
      rfl, rfl, rfl, rfl, rfl, rfl⟩

/-! ## Reading bytes -/

/-- A quadword read of the cells that hold the bytes of `v` is `v`. -/
theorem memRead_of_byte_cells {a v : Word} {s : State} (ha : accessible a 8 s)
    (h : ∀ k < 8, s.cell (a + BitVec.ofNat 64 (byteIndex s.config.byteOrder k)) =
      some (.byte (v.extractLsb' (8 * k) 8))) : memRead a s = .ok v := by
  refine memRead_eq_ok.2 ⟨accessOk_iff.2 ha, quadBytes s.config.byteOrder v, ?_, joinBytes_quadBytes _ v⟩
  refine readBytes_bytes 8 a 0 s _ (quadBytes_length _ v) fun j hj => ?_
  have hj8 : j < 8 := by simpa using hj
  have hcell := h (byteIndex s.config.byteOrder j) (byteIndex_lt hj8)
  rw [byteIndex_byteIndex hj8] at hcell
  rw [hcell, quadBytes_get, byteAt]

/-- Byte `j` of a quadword read is the `Byte` that stands in its cell. -/
theorem byte_of_memRead {a v : Word} {b : Byte} {j : Nat} {s : State} (h : memRead a s = .ok v) (hj : j < 8)
    (hb : s.cell (a + BitVec.ofNat 64 (byteIndex s.config.byteOrder j)) = some (.byte b)) :
    v.extractLsb' (8 * j) 8 = b := by
  obtain ⟨-, bs, hbs, rfl⟩ := memRead_eq_ok.1 h
  obtain ⟨hlen, hget⟩ := readBytes_get 8 a 0 s bs hbs
  have hread := hget _ (byteIndex_lt (o := s.config.byteOrder) hj)
  rw [readCell_eq_byte hb] at hread
  rw [join_get _ bs hlen j hj]
  exact (Except.ok.inj hread).symm

theorem memRead_of_not_accessible {a : Word} {s : State} (h : ¬ accessible a 8 s) :
    memRead a s = .error (.addrWrap a) := by
  rw [memRead, checkAccess_of_not_accessible h, bind_error]

/-- The first cell that fails names the fault of a quadword read (20_memory.md R56). -/
theorem memRead_of_first_failure {a : Word} {s : State} {k : Nat} {f : Fault} (ha : accessible a 8 s) (hk : k < 8)
    (hbefore : ∀ j < k, cellReadable (a + BitVec.ofNat 64 j) s)
    (hf : readCell (a + BitVec.ofNat 64 k) k s = .error f) : memRead a s = .error f := by
  have hbytes : readBytes a 0 s 8 = .error f :=
    readBytes_fail 8 a 0 s f k hk hbefore (by rwa [Nat.zero_add])
  rw [memRead, checkAccess_of_accessible ha, bind_ok, hbytes, bind_error]

theorem readCell_of_none {a : Word} {s : State} (k : Nat) (h : s.cell a = none) :
    readCell a k s = .error (.uninit (.cell a)) := by
  simp only [readCell, h]

theorem readCell_of_insTail {a : Word} {s : State} (k : Nat) (hp : s.config.codeRead = .fault)
    (h : s.cell a = some .insTail) : readCell a k s = .error (.codeRead a) := by
  simp only [readCell, h, hp]

theorem readCell_of_insHead {a : Word} {s : State} {t : Term} (k : Nat) (hp : s.config.codeRead = .fault)
    (h : s.cell a = some (.insHead t)) : readCell a k s = .error (.codeRead a) := by
  simp only [readCell, h, hp]

theorem memReadByte_eq_readCell (r : Nat) (a : Word) (s : State) : memReadByte r a s = readCell a (8 + r) s := by
  rw [memReadByte, checkAccess_of_accessible (accessible_one a s), bind_ok]

/-- Settles O13: the three ways a cell can fail go through `memRead_of_first_failure`. -/
theorem memoryReadByteByByte : Obligations.MemoryReadByteByByte := by
  intro a s
  refine ⟨fun v => memRead_of_byte_cells, fun r b hb => ?_, memRead_of_not_accessible, fun ha k hk hbefore => ?_⟩
  · rw [memReadByte_eq_readCell, readCell_eq_byte hb]
  · have fails {f : Fault} : readCell (a + BitVec.ofNat 64 k) k s = .error f → memRead a s = .error f :=
      memRead_of_first_failure ha hk hbefore
    exact ⟨fun h => fails (readCell_of_none k h), fun hp h => fails (readCell_of_insTail k hp h),
      fun hp t h => fails (readCell_of_insHead k hp h)⟩

/-- Settles O15: a read takes each byte from the cell that the last write to its address filled. -/
theorem readsReturnTheLatestWriteOfEachByte : Obligations.ReadsReturnTheLatestWriteOfEachByte := by
  refine ⟨fun a v s t ht => ?_, fun a v b j s t hj ht hread => ?_,
    fun a x v w s t u ht hu => ⟨fun k hk => ?_, fun k hk hout => ?_⟩⟩
  · obtain ⟨hok, rfl⟩ := memWrite_eq_ok.1 ht
    exact memRead_setBytes_quadBytes v hok
  · obtain ⟨-, rfl⟩ := memWriteByte_eq_ok.1 ht
    refine byte_of_memRead hread hj ?_
    rw [setBytes_config, BitVec.sub_add_cancel]
    exact setBytes_one_cell s a b
  · obtain ⟨-, rfl⟩ := memWrite_eq_ok.1 ht
    obtain ⟨-, rfl⟩ := memWrite_eq_ok.1 hu
    exact setQuad_cell _ x w _ hk
  · obtain ⟨-, rfl⟩ := memWrite_eq_ok.1 ht
    obtain ⟨-, rfl⟩ := memWrite_eq_ok.1 hu
    rw [setQuad_memSameOutside _ x _ w _ hout]
    exact setQuad_cell s a v _ hk

/-! ## Operands in memory -/

/-- A quadword read answers exactly where the quadword is readable (20_memory.md R56). -/
theorem memRead_ok_iff {a : Word} {s : State} : (∃ v, memRead a s = .ok v) ↔ quadReadable a s := by
  unfold quadReadable
  rw [← readBytes_ok_iff 8 a 0 s, ← accessOk_iff]
  constructor
  · rintro ⟨v, hv⟩
    obtain ⟨hok, bs, hbs, -⟩ := memRead_eq_ok.1 hv
    exact ⟨hok, bs, hbs⟩
  · rintro ⟨hok, bs, hbs⟩
    exact ⟨_, memRead_eq_ok.2 ⟨hok, bs, hbs, rfl⟩⟩

theorem memWrite_ok_iff {a v : Word} {s : State} : (∃ t, memWrite a v s = .ok t) ↔ accessible a 8 s := by
  simp [memWrite_eq_ok, accessOk_iff]

theorem readReg_eq_ok {r : Reg} {s : State} {v : Word} :
    readReg r s = .ok v ↔ regReadable r s ∧ regValue r s = v := by
  constructor
  · exact fun h => ⟨readReg_ok_iff.1 ⟨v, h⟩, readReg_eq h⟩
  · rintro ⟨hr, rfl⟩
    obtain ⟨v, hv⟩ := readReg_ok_iff.2 hr
    rw [hv, readReg_eq hv]

/-- An address is formed exactly where the base holds a value, and is then the effective address. -/
theorem addr_eq_ok {op : Operand} {s : State} {a : Word} :
    addr op s = .ok a ↔ baseReadable op s ∧ effectiveAddress op s = a := by
  cases op with
  | imm i => simp [addr, baseReadable]
  | reg r => simp [addr, baseReadable]
  | ind1 d => simp [addr, baseReadable, effectiveAddress]
  | ind2 r => exact readReg_eq_ok
  | ind3 d r => simp [addr, bind_eq_ok, readReg_eq_ok, pure_eq_ok, baseReadable, effectiveAddress]

/-- What goes on from an address answers exactly where the address is formed and it answers there. -/
theorem addr_bind_ok_iff {α : Type} {op : Operand} {s : State} {f : Word → Except Fault α} :
    (∃ x, addr op s >>= f = .ok x) ↔ baseReadable op s ∧ ∃ x, f (effectiveAddress op s) = .ok x := by
  constructor
  · rintro ⟨x, h⟩
    obtain ⟨a, ha, hx⟩ := bind_eq_ok.1 h
    obtain ⟨hbase, rfl⟩ := addr_eq_ok.1 ha
    exact ⟨hbase, x, hx⟩
  · rintro ⟨hbase, x, hx⟩
    exact ⟨x, bind_eq_ok.2 ⟨_, addr_eq_ok.2 ⟨hbase, rfl⟩, hx⟩⟩

theorem val_of_isInd {op : Operand} (s : State) (h : op.isInd = true) :
    val op s = addr op s >>= fun a => memRead a s := by
  cases op with
  | imm i | reg r => cases h
  | ind1 d | ind2 r | ind3 d r => rfl

theorem store_of_isInd {op : Operand} (v : Word) (s : State) (h : op.isInd = true) :
    store op v s = addr op s >>= fun a => memWrite a v s := by
  cases op with
  | imm i | reg r => cases h
  | ind1 d | ind2 r | ind3 d r => rfl

theorem readable_of_isInd {op : Operand} {s : State} (h : op.isInd = true) :
    Readable op s ↔ baseReadable op s ∧ quadReadable (effectiveAddress op s) s := by
  cases op with
  | imm i | reg r => cases h
  | ind1 d => simp [Readable, baseReadable]
  | ind2 r | ind3 d r => rfl

theorem writable_of_isInd {op : Operand} {n : Nat} {s : State} (h : op.isInd = true) :
    Writable op n s ↔ baseReadable op s ∧ accessible (effectiveAddress op s) n s := by
  cases op with
  | imm i | reg r => cases h
  | ind1 d => simp [Writable, baseReadable]
  | ind2 r | ind3 d r => rfl

/-- A memory operand has a value exactly where its address is formed and its quadword is readable. -/
theorem val_ok_iff_of_isInd {op : Operand} {s : State} (h : op.isInd = true) :
    (∃ x, val op s = .ok x) ↔ Readable op s := by
  rw [readable_of_isInd h, ← memRead_ok_iff, val_of_isInd s h, addr_bind_ok_iff]

/-- A memory operand can be stored to exactly where its address is formed and its eight bytes exist. -/
theorem store_ok_iff_of_isInd {op : Operand} {v : Word} {s : State} (h : op.isInd = true) :
    (∃ t, store op v s = .ok t) ↔ Writable op 8 s := by
  rw [writable_of_isInd h, ← memWrite_ok_iff, store_of_isInd v s h, addr_bind_ok_iff]

theorem val_ok_iff {op : Operand} {s : State} : (∃ x, val op s = .ok x) ↔ Readable op s := by
  cases op with
  | imm i => simp [val, Readable]
  | reg r => exact readReg_ok_iff
  | ind1 d | ind2 r | ind3 d r => exact val_ok_iff_of_isInd rfl

theorem store_ok_iff {op : Operand} {v : Word} {s : State} : (∃ t, store op v s = .ok t) ↔ Writable op 8 s := by
  cases op with
  | imm i => simp [store, Writable]
  | reg r => cases r <;> simp [store, Writable]
  | ind1 d | ind2 r | ind3 d r => exact store_ok_iff_of_isInd rfl

/-- Settles O17, kind by kind: the three memory kinds differ only in how the address is formed. -/
theorem readableAndWritableFromTheState : Obligations.ReadableAndWritableFromTheState :=
  fun _ _ _ => ⟨val_ok_iff, store_ok_iff⟩

/-! ## Decoding and fetching -/

/-- The cells of an instruction are its term and seven `InsTail`. -/
theorem encode_map_some (i : Instr) : (encode i).map some = some (.insHead i.term) :: tailCells := rfl

/-- Settles O3: the decoder takes a head with the seven tails alone, and the term there names its one instruction. -/
theorem decodeAcceptsOnlyEncodedInstructions : Obligations.DecodeAcceptsOnlyEncodedInstructions := by
  intro cs i
  rw [encode_map_some]
  constructor
  · intro h
    unfold decode at h
    split at h
    · split at h
      · rename_i t tail htail
        split at h
        · rename_i j hj
          cases h
          rw [htail, decodeTerm_some hj]
        · cases h
      · cases h
    · cases h
  · rintro rfl
    simp [decode, decodeTerm_term]

/-- A whole term stands at an address: `InsHead` of it and seven `InsTail`, all inside memory (20_memory.md R53; R60
for `wrap`). It may have the wrong operand count. -/
def TermStandsAt (t : Term) (a : Word) (s : State) : Prop :=
  accessible a 8 s ∧ s.cell a = some (.insHead t) ∧
    ∀ k, 1 ≤ k → k < 8 → s.cell (a + BitVec.ofNat 64 k) = some .insTail

theorem standsAt_iff {i : Instr} {a : Word} {s : State} : StandsAt i a s ↔ TermStandsAt i.term a s := Iff.rfl

theorem exists_termStandsAt {a : Word} {s : State} :
    (∃ t, TermStandsAt t a s) ↔ accessible a 8 s ∧ (∃ t, s.cell a = some (.insHead t)) ∧
      ∀ k, 1 ≤ k → k < 8 → s.cell (a + BitVec.ofNat 64 k) = some .insTail := by
  simp only [TermStandsAt, exists_and_left, exists_and_right]

/-- Where a term stands, a fetch decodes it. -/
theorem fetch_of_termStandsAt {t : Term} {a : Word} {s : State} (h : TermStandsAt t a s) :
    fetch a s = .ok (decodeTerm t) := by
  obtain ⟨hacc, hhead, htails⟩ := h
  rw [fetch, if_pos (accessOk_iff.2 hacc), decode_cells, hhead]
  simp only [if_pos htails]
  cases decodeTerm t <;> rfl

/-- Where no term stands, a fetch raises `F_FETCH` (20_memory.md R58). -/
theorem fetch_of_no_term {a : Word} {s : State} (h : ∀ t, ¬ TermStandsAt t a s) : fetch a s = .error (.fetch a) := by
  unfold fetch
  split
  · rename_i hok
    rw [decode_cells]
    cases hhead : s.cell a with
    | none => rfl
    | some c =>
      cases c with
      | byte b => rfl
      | insTail => rfl
      | insHead t =>
        have htails : ¬ ∀ k, 1 ≤ k → k < 8 → s.cell (a + BitVec.ofNat 64 k) = some .insTail :=
          fun ht => h t ⟨accessOk_iff.1 hok, hhead, ht⟩
        simp only [if_neg htails]
  · rfl

/-- A fetch answers exactly the decoding of the term that stands there. -/
theorem fetch_eq_ok {a : Word} {s : State} {o : Option Instr} :
    fetch a s = .ok o ↔ ∃ t, TermStandsAt t a s ∧ decodeTerm t = o := by
  constructor
  · intro h
    by_cases hstands : ∃ t, TermStandsAt t a s
    · obtain ⟨t, ht⟩ := hstands
      rw [fetch_of_termStandsAt ht] at h
      exact ⟨t, ht, Except.ok.inj h⟩
    · rw [fetch_of_no_term (not_exists.1 hstands)] at h
      cases h
  · rintro ⟨t, ht, rfl⟩
    exact fetch_of_termStandsAt ht

/-- A fetch raises no fault but `F_FETCH` of its address, and exactly where no term stands. -/
theorem fetch_eq_error {a : Word} {s : State} {f : Fault} :
    fetch a s = .error f ↔ f = .fetch a ∧ ∀ t, ¬ TermStandsAt t a s := by
  constructor
  · intro h
    have hnone : ∀ t, ¬ TermStandsAt t a s := by
      intro t ht
      rw [fetch_of_termStandsAt ht] at h
      cases h
    rw [fetch_of_no_term hnone] at h
    exact ⟨(Except.error.inj h).symm, hnone⟩
  · rintro ⟨rfl, hnone⟩
    exact fetch_of_no_term hnone

theorem step_of_fetch_error {s : State} {f : Fault} (hne : s.rip ≠ s.haltAddr) (h : fetch s.rip s = .error f) :
    step s = .fault f := by
  simp only [step, if_neg hne, h]

/-- An instruction is fetched exactly where it stands. -/
theorem fetch_eq_some {i : Instr} {a : Word} {s : State} : fetch a s = .ok (some i) ↔ StandsAt i a s := by
  rw [fetch_eq_ok, standsAt_iff]
  constructor
  · rintro ⟨t, ht, hi⟩
    rwa [← decodeTerm_some hi]
  · exact fun h => ⟨i.term, h, decodeTerm_term i⟩

/-- Settles O2: a fetch answers the decoding of the term that stands there, and faults where none does. -/
theorem fetchReturnsExactlyWhatStands : Obligations.FetchReturnsExactlyWhatStands := by
  intro a s
  refine ⟨fun i => fetch_eq_some, ?_, fun f => ?_, fun f => step_of_fetch_error⟩
  · simp only [fetch_eq_ok, decodeTerm_none, TermStandsAt]
    tauto
  · rw [fetch_eq_error, ← not_exists, exists_termStandsAt]

/-! ## Placing an instruction, and writing over one -/

@[simp] theorem encode_length (i : Instr) : (encode i).length = 8 := rfl

theorem encode_getElem_tail (i : Instr) {k : Nat} (h : 1 ≤ k) (hk : k < (encode i).length) :
    (encode i)[k] = .insTail := by
  obtain ⟨j, rfl⟩ := Nat.exists_eq_add_of_le' h
  exact List.getElem_replicate _

/-- Settles O1: the cells just written are the ones a fetch looks at. -/
theorem placedInstructionIsFetched : Obligations.PlacedInstructionIsFetched := by
  intro i a s ha
  have hcell {k : Nat} (hk : k < (encode i).length) :
      (s.setCells a (encode i)).cell (a + BitVec.ofNat 64 k) = some (encode i)[k] :=
    setCells_cell_inside s a (encode i) k hk (by simp)
  have hstands : StandsAt i a (s.setCells a (encode i)) := by
    refine ⟨ha, ?_, fun k h1 h8 => ?_⟩
    · simpa [encode] using hcell (k := 0) (by simp)
    · have h8 : k < (encode i).length := by simpa using h8
      rw [hcell h8, encode_getElem_tail i h1]
  exact ⟨hstands, fetch_eq_some.2 hstands⟩

/-- No term stands where one of the eight cells holds a `Byte`. -/
theorem not_termStandsAt_of_byte {t : Term} {a y : Word} {b : Byte} {s : State} (hy : inBytes a 8 y)
    (hb : s.cell y = some (.byte b)) : ¬ TermStandsAt t a s := by
  rintro ⟨-, hhead, htails⟩
  obtain ⟨k, hk, rfl⟩ := hy
  cases k with
  | zero => simp [hhead] at hb
  | succ k => simp [htails (k + 1) (by omega) hk] at hb

/-- A write over any of the eight cells at an address leaves no instruction there (20_memory.md R70). -/
theorem fetch_setBytes_overlap {a x y : Word} {bs : List Byte} (s : State) (hn : bs.length ≤ 2 ^ 64)
    (ha : inBytes a 8 y) (hx : inBytes x bs.length y) : fetch a (s.setBytes x bs) = .error (.fetch a) := by
  obtain ⟨b, hb⟩ := setBytes_cell_is_byte s hn hx
  exact fetch_of_no_term fun _ => not_termStandsAt_of_byte ha hb

/-- Settles O9: a shared byte is a `Byte` after the write, and no term stands over one. -/
theorem overwrittenInstructionIsGone : Obligations.OverwrittenInstructionIsGone := by
  refine fun a x v b s t => ⟨fun ht ⟨y, ha, hx⟩ => ?_, fun ht hx => ?_⟩
  · obtain ⟨-, rfl⟩ := memWrite_eq_ok.1 ht
    exact fetch_setBytes_overlap s (by simp) ha (by simpa using hx)
  · obtain ⟨-, rfl⟩ := memWriteByte_eq_ok.1 ht
    exact fetch_setBytes_overlap s (by simp) hx ⟨0, by simp, by simp⟩

/-! ## What every step keeps of memory -/

/-- If memory of the first state is canonical, so is that of the second. -/
def CanonicalKept (s t : State) : Prop := s.mem.wf = true → t.mem.wf = true

theorem canonicalKept_keptByUpdates : KeptByUpdates CanonicalKept where
  refl _ := id
  trans hst htu := htu ∘ hst
  gpr _ _ _ := id
  rip _ _ := id
  flags _ _ _ := id
  bytes _ _ _ := Memory.wf_setCells _ _ _

/-- Settles O49: of the updates an instruction is made of, only the write of bytes touches memory, and it keeps the
form. -/
theorem stepKeepsMemoryCanonical : Obligations.StepKeepsMemoryCanonical := by
  intro s t hwf h
  obtain ⟨-, i, -, -, hexec⟩ := step_next h
  exact related_of_exec canonicalKept_keptByUpdates hexec hwf

/-- Settles O50: of the updates an instruction is made of, only the write of bytes changes a cell. -/
theorem noStepCreatesInstructionCells : Obligations.NoStepCreatesInstructionCells := by
  intro s t h
  obtain ⟨-, i, -, -, hexec⟩ := step_next h
  exact (related_of_exec goodBack hexec).x

end Sys2Proof.Machine

/-! PROOFS. Encoding (30_encoding.md): the operand table, what the checks of R96 refuse before and during a run, and
the layout of a program with its labels. -/

namespace Sys2Proof

open Machine

/-! ## The kinds of operands the table names -/

theorem isLoc_iff_ne {op : Operand} : IsLoc op ↔ (∀ n, op ≠ .imm n) ∧ op ≠ .reg .rip := by
  cases op with
  | imm i => simp [IsLoc, Operand.isInd]
  | reg r => cases r <;> simp [IsLoc, Operand.isInd]
  | ind1 d | ind2 r | ind3 d r => simp [IsLoc, Operand.isInd]

/-- The locations that are not in memory are the general registers. -/
theorem isLoc_and_not_isInd_iff {op : Operand} : IsLoc op ∧ op.isInd = false ↔ ∃ r, op = .reg (.gpr r) := by
  constructor
  · rintro ⟨hreg | hind, hnot⟩
    · exact hreg
    · simp [hind] at hnot
  · rintro ⟨r, rfl⟩
    exact ⟨.inl ⟨r, rfl⟩, rfl⟩

theorem Operand.isAmount_iff {op : Operand} :
    op.isAmount = true ↔ (∃ n, op = .imm n) ∨ op = .reg (.gpr .rcx) := by
  cases op <;> simp [Operand.isAmount]

theorem Operand.isInd_of_isAmount {op : Operand} (h : op.isAmount = true) : op.isInd = false := by
  rcases Operand.isAmount_iff.1 h with ⟨n, rfl⟩ | rfl <;> rfl

theorem Operand.usesRsp_eq_false_iff {op : Operand} :
    op.usesRsp = false ↔ op ≠ .reg (.gpr .rsp) ∧ op ≠ .ind2 (.gpr .rsp) ∧ ∀ d, op ≠ .ind3 d (.gpr .rsp) := by
  cases op <;> simp [Operand.usesRsp]

/-! ## What the checks say together -/

theorem Instr.immNotWritten_iff {i : Instr} {dst : Operand} (h : i.written = some dst) :
    i.immNotWritten = true ↔ ∀ n, dst ≠ .imm n := by
  cases dst <;> simp [Instr.immNotWritten, h]

theorem Instr.ripNotWritten_iff {i : Instr} {dst : Operand} (h : i.written = some dst) :
    i.ripNotWritten = true ↔ dst ≠ .reg .rip := by
  cases dst with
  | reg r => cases r <;> simp [Instr.ripNotWritten, h]
  | _ => simp [Instr.ripNotWritten, h]

/-- The two checks of a written operand say that it is a location (R91, R93, R95). -/
theorem Instr.wellFormed_literal_of_written {i : Instr} {dst : Operand} (h : i.written = some dst) :
    i.wellFormed .literal = true ↔ IsLoc dst ∧ i.notTwoInd = true ∧ i.kindsOk = true := by
  rw [isLoc_iff_ne, ← Instr.immNotWritten_iff h, ← Instr.ripNotWritten_iff h]
  simp only [Instr.wellFormed, Instr.rspOperandOk, Bool.and_eq_true]
  tauto

theorem Instr.wellFormed_literal_of_written_none {i : Instr} (h : i.written = none) :
    i.wellFormed .literal = true ↔ i.notTwoInd = true ∧ i.kindsOk = true := by
  simp [Instr.wellFormed, Instr.rspOperandOk, Instr.immNotWritten, Instr.ripNotWritten, h]

theorem Instr.notTwoInd_pair {i : Instr} {a b : Operand} (h : i.term.operands = [a, b]) :
    i.notTwoInd = true ↔ ¬ (a.isInd = true ∧ b.isInd = true) := by
  rw [Instr.notTwoInd, h, ← Bool.and_eq_true, Bool.not_eq_true', Bool.not_eq_true]

/-- `RspOperandPolicy = refuse` adds its one check to the table (D10). -/
theorem Instr.wellFormed_refuse_iff {i : Instr} :
    i.wellFormed .refuse = true ↔ i.wellFormed .literal = true ∧
      ∀ op, (i = .pushq op ∨ i = .callq op ∨ i = .popq op) → op.usesRsp = false := by
  have hrsp : i.rspOperandOk .refuse = true ↔
      ∀ op, (i = .pushq op ∨ i = .callq op ∨ i = .popq op) → op.usesRsp = false := by
    cases i <;> simp [Instr.rspOperandOk]
  rw [← hrsp]
  simp [Instr.wellFormed, Instr.rspOperandOk]

/-! ## The rows of the operand table -/

/-- The rows with one operand, a location. -/
theorem Instr.wellFormed_unary {i : Instr} {dst : Operand} (hw : i.written = some dst) (hi : i.notTwoInd = true)
    (hk : i.kindsOk = true) : i.wellFormed .literal = true ↔ IsLoc dst := by
  simp [Instr.wellFormed_literal_of_written hw, hi, hk]

/-- The rows of any `SRC` and a location. -/
theorem Instr.wellFormed_binary {i : Instr} {src dst : Operand} (hw : i.written = some dst)
    (ht : i.term.operands = [src, dst]) (hk : i.kindsOk = true) :
    i.wellFormed .literal = true ↔ IsLoc dst ∧ ¬ (src.isInd = true ∧ dst.isInd = true) := by
  simp [Instr.wellFormed_literal_of_written hw, ← Instr.notTwoInd_pair ht, hk]

/-- The rows of the shifts: an amount is never in memory, so `notTwoInd` adds nothing. -/
theorem Instr.wellFormed_shift {i : Instr} {amt dst : Operand} (hw : i.written = some dst)
    (ht : i.term.operands = [amt, dst]) (hk : i.kindsOk = amt.isAmount) :
    i.wellFormed .literal = true ↔ ((∃ n, amt = .imm n) ∨ amt = .reg (.gpr .rcx)) ∧ IsLoc dst := by
  rw [Instr.wellFormed_literal_of_written hw, Instr.notTwoInd_pair ht, hk, ← Operand.isAmount_iff]
  constructor
  · rintro ⟨hdst, -, hamt⟩
    exact ⟨hamt, hdst⟩
  · rintro ⟨hamt, hdst⟩
    exact ⟨hdst, by simp [Operand.isInd_of_isAmount hamt], hamt⟩

theorem Instr.wellFormed_imulq {src dst : Operand} :
    (Instr.imulq src dst).wellFormed .literal = true ↔ ∃ r, dst = .reg (.gpr r) := by
  rw [Instr.wellFormed_literal_of_written rfl, Instr.notTwoInd_pair rfl, ← isLoc_and_not_isInd_iff]
  simp only [Instr.kindsOk, Bool.not_eq_true']
  constructor
  · rintro ⟨hdst, -, hreg⟩
    exact ⟨hdst, hreg⟩
  · rintro ⟨hdst, hreg⟩
    exact ⟨hdst, by simp [hreg], hreg⟩

/-- `SRC` is in memory, so `notTwoInd` leaves `DEST` a register. -/
theorem Instr.wellFormed_leaq {src dst : Operand} :
    (Instr.leaq src dst).wellFormed .literal = true ↔ src.isInd = true ∧ ∃ r, dst = .reg (.gpr r) := by
  rw [Instr.wellFormed_literal_of_written rfl, Instr.notTwoInd_pair rfl, ← isLoc_and_not_isInd_iff]
  simp only [Instr.kindsOk, not_and, Bool.not_eq_true]
  constructor
  · rintro ⟨hdst, hnot, hsrc⟩
    exact ⟨hsrc, hdst, hnot hsrc⟩
  · rintro ⟨hsrc, hdst, hreg⟩
    exact ⟨hdst, fun _ => hreg, hsrc⟩

theorem Instr.wellFormed_cmpq {src1 src2 : Operand} :
    (Instr.cmpq src1 src2).wellFormed .literal = true ↔ ¬ (src1.isInd = true ∧ src2.isInd = true) := by
  simp [Instr.wellFormed_literal_of_written_none (i := .cmpq src1 src2) rfl,
    Instr.notTwoInd_pair (i := .cmpq src1 src2) rfl, Instr.kindsOk]

/-- Settles O5: one lemma per shape of row, and the one check that `refuse` adds. -/
theorem wellFormedIsTheOperandTable : Obligations.WellFormedIsTheOperandTable := by
  intro x y
  refine ⟨?unary, ?setb, ?binary, Instr.wellFormed_imulq, ?shift, Instr.wellFormed_leaq, Instr.wellFormed_cmpq,
    ?read, ?jump, ?refuse⟩
  case unary =>
    simp only [List.forall_mem_cons]
    refine ⟨?_, ?_, ?_, ?_, ?_, List.forall_mem_nil _⟩ <;> exact Instr.wellFormed_unary rfl rfl rfl
  case setb => intro cc; cases cc <;> exact Instr.wellFormed_unary rfl rfl rfl
  case binary =>
    simp only [List.forall_mem_cons]
    refine ⟨?_, ?_, ?_, ?_, ?_, ?_, List.forall_mem_nil _⟩ <;> exact Instr.wellFormed_binary rfl rfl rfl
  case shift =>
    simp only [List.forall_mem_cons]
    refine ⟨?_, ?_, ?_, List.forall_mem_nil _⟩ <;> exact Instr.wellFormed_shift rfl rfl rfl
  case read =>
    simp only [List.forall_mem_cons]
    exact ⟨rfl, rfl, rfl, rfl, List.forall_mem_nil _⟩
  case jump => intro cc; cases cc <;> rfl
  case refuse =>
    intro i
    simp only [Instr.wellFormed_refuse_iff, Operand.usesRsp_eq_false_iff]

/-- A term fails the check exactly where its operand count is wrong or its instruction is ill-formed (R91, R96). -/
theorem Term.wellFormed_eq_false_iff {p : RspOperandPolicy} {t : Term} :
    t.wellFormed p = false ↔
      t.operands.length ≠ t.op.arity ∨ ∃ i : Instr, i.term = t ∧ i.wellFormed p = false := by
  rw [← decodeTerm_none, Term.wellFormed]
  cases h : decodeTerm t with
  | none => simp
  | some i =>
    obtain rfl := decodeTerm_some h
    constructor
    · exact fun hi => .inr ⟨i, rfl, hi⟩
    · rintro (hnone | ⟨j, hj, hjw⟩)
      · cases hnone
      · rw [← hj, decodeTerm_term] at h
        rwa [← Option.some.inj h]

namespace Machine

theorem decode_encode (i : Instr) : decode ((encode i).map some) = .ok i :=
  (decodeAcceptsOnlyEncodedInstructions _ i).2 rfl

/-- Settles O4: each list of cells is the encoding of its instruction. -/
theorem writtenOutTermsDecode : Obligations.WrittenOutTermsDecode :=
  ⟨decode_encode (.movq _ _), decode_encode (.subq _ _), decode_encode (.setbLt _), decode_encode (.jNeq _),
    decode_encode .retq⟩

/-! ## An ill-formed term at the step -/

/-- The step at a whole term that the check of R96 refuses. -/
theorem step_of_illFormed_term {t : Term} {s : State} (hne : s.rip ≠ s.haltAddr) (ht : TermStandsAt t s.rip s)
    (hw : t.wellFormed s.config.rspOperand = false) : step s = .fault (.illFormed s.rip) := by
  rw [Term.wellFormed] at hw
  simp only [step, if_neg hne, fetch_of_termStandsAt ht]
  cases hd : decodeTerm t with
  | none => rfl
  | some i =>
    simp only [hd] at hw
    simp [admits, hw]

/-- Everything a step that faults did: it fetched nothing, it fetched an ill-formed term, or it ran a well-formed
instruction that faulted. -/
theorem step_fault {s : State} {f : Fault} (h : step s = .fault f) :
    f = .fetch s.rip ∨
      (f = .illFormed s.rip ∧ ∃ t, TermStandsAt t s.rip s ∧ t.wellFormed s.config.rspOperand = false) ∨
      ∃ i, StandsAt i s.rip s ∧ i.wellFormed s.config.rspOperand = true ∧ exec i (enterInstr s) = .fault f := by
  unfold step at h
  split at h
  · cases h
  · split at h
    · rename_i e hfetch
      cases h
      exact .inl (fetch_eq_error.1 hfetch).1
    · rename_i hfetch
      obtain ⟨t, ht, hnone⟩ := fetch_eq_ok.1 hfetch
      cases h
      exact .inr (.inl ⟨rfl, t, ht, Term.wellFormed_eq_false_iff.2 (.inl (decodeTerm_none.1 hnone))⟩)
    · rename_i i hfetch
      have hi := fetch_eq_some.1 hfetch
      split at h
      · rename_i hadmits
        exact .inr (.inr ⟨i, hi, hadmits, h⟩)
      · rename_i hadmits
        cases h
        exact .inr (.inl ⟨rfl, i.term, standsAt_iff.1 hi,
          Term.wellFormed_eq_false_iff.2 (.inr ⟨i, rfl, Bool.eq_false_iff.2 hadmits⟩)⟩)

theorem exec_ne_illFormed {p : RspOperandPolicy} {i : Instr} (hw : i.wellFormed p = true) (s : State) (a : Word) :
    exec i s ≠ .fault (.illFormed a) := by
  intro h
  rcases exec_err hw h with hfine | ⟨-, b, hb, -⟩
  · exact hfine
  · cases hb

/-! ## The check of a program that is built or loaded -/

theorem build_eq_ok {p : RspOperandPolicy} {base : Word} {data : List (Nat × Word)} {text : List Line}
    {ts : List Term} :
    build p base data text = .ok ts ↔ assemble base data text = some ts ∧ ∀ t ∈ ts, t.wellFormed p = true := by
  rw [← firstIllFormedLine_none (k := 0), build]
  cases assemble base data text with
  | none => simp
  | some us =>
    simp only [Option.some.injEq]
    constructor
    · intro h
      split at h
      · cases h
      · rename_i hline
        cases h
        exact ⟨rfl, hline⟩
    · rintro ⟨rfl, hline⟩
      rw [hline]

theorem Launch.load_eq_ok {l : Launch} {s : State} :
    l.load = .ok s ↔ s = l.start ∧
      ∀ a t, (a, MemCell.insHead t) ∈ l.mem0 → t.wellFormed l.config.rspOperand = true := by
  rw [← firstIllFormedCell_none, Launch.load]
  cases firstIllFormedCell l.config.rspOperand l.mem0 with
  | none => simp [eq_comm]
  | some a => simp

/-! ## A run from a loaded launch -/

/-- Every term in memory passes the check of R96. -/
def CodeWellFormed (s : State) : Prop :=
  ∀ a t, s.cell a = some (.insHead t) → t.wellFormed s.config.rspOperand = true

/-- Updates put only `Byte` cells in memory, so they bring no term. -/
theorem Back.codeWellFormed {s t : State} (h : Back s t) (hs : CodeWellFormed s) : CodeWellFormed t := by
  intro a u hu
  rw [h.c]
  rcases h.x a with hsame | ⟨b, hb⟩
  · exact hs a u (hsame ▸ hu)
  · rw [hb] at hu
    cases hu

theorem CodeWellFormed.of_step {s t : State} (h : step s = .next t) (hs : CodeWellFormed s) : CodeWellFormed t := by
  obtain ⟨-, i, -, -, hexec⟩ := step_next h
  exact (related_of_exec goodBack hexec).codeWellFormed hs

theorem CodeWellFormed.of_reaches {s t : State} (h : Reaches s t) (hs : CodeWellFormed s) : CodeWellFormed t := by
  induction h with
  | refl => exact hs
  | tail _ hstep ih => exact ih.of_step hstep

/-- The bytes of `HaltAddr` apart, the memory of a first state is the launch's own. -/
theorem Launch.codeWellFormed_start {l : Launch}
    (h : ∀ a t, (a, MemCell.insHead t) ∈ l.mem0 → t.wellFormed l.config.rspOperand = true) :
    CodeWellFormed l.start :=
  (goodBack.bytes { l.start with mem := l.mem0 } l.rsp0 (quadBytes l.config.byteOrder l.haltAddr)).codeWellFormed
    fun a t ht => h a.toNat t (Memory.mem_of_get ht)

theorem CodeWellFormed.step_ne_illFormed {s : State} (hs : CodeWellFormed s) (a : Word) :
    step s ≠ .fault (.illFormed a) := by
  intro h
  rcases step_fault h with hf | ⟨-, t, ⟨-, hhead, -⟩, hw⟩ | ⟨i, -, hw, hexec⟩
  · cases hf
  · simp [hs _ t hhead] at hw
  · exact exec_ne_illFormed hw _ a hexec

/-- Settles O7: the step and the two checks say `Term.wellFormed`, and a run keeps every term of memory so. -/
theorem illFormedTermFaults : Obligations.IllFormedTermFaults := by
  refine ⟨fun t s hne hacc hhead htails hbad => ?_, fun p base data text ts => ?_, fun l s => ?_,
    fun l s u hload hreach => ?_⟩
  · exact step_of_illFormed_term hne ⟨hacc, hhead, htails⟩ (Term.wellFormed_eq_false_iff.2 hbad)
  · simp only [build_eq_ok, Term.wellFormed_iff]
  · simp only [Launch.load_eq_ok, Term.wellFormed_iff]
  · obtain ⟨rfl, hmem⟩ := Launch.load_eq_ok.1 hload
    exact ((Launch.codeWellFormed_start hmem).of_reaches hreach).step_ne_illFormed

/-! ## Layout and labels -/

theorem add_ofNat_add (a : Word) (m n : Nat) :
    a + BitVec.ofNat 64 (m + n) = a + BitVec.ofNat 64 m + BitVec.ofNat 64 n := by
  rw [BitVec.ofNat_add, BitVec.add_assoc]

theorem Memory.setCells_append (cs ds : List MemCell) (m : Memory) (a : Word) :
    m.setCells a (cs ++ ds) = (m.setCells a cs).setCells (a + BitVec.ofNat 64 cs.length) ds := by
  induction cs generalizing m a with
  | nil => simp [Memory.setCells]
  | cons c cs ih =>
    rw [List.cons_append, Memory.setCells, ih, List.length_cons, Nat.add_comm, add_ofNat_add]
    rfl

@[simp] theorem termCells_length (t : Term) : (termCells t).length = 8 := rfl

/-- A layout writes the terms' cells one after the other. -/
theorem Memory.layout_eq_setCells (ts : List Term) (m : Memory) (base : Word) :
    m.layout base ts = m.setCells base (ts.flatMap termCells) := by
  induction ts generalizing m base with
  | nil => rfl
  | cons t ts ih => simp [Memory.layout, ih, Memory.setCells_append]

theorem flatMap_termCells_length (ts : List Term) : (ts.flatMap termCells).length = 8 * ts.length := by
  simp [List.length_flatMap, Nat.mul_comm]

theorem flatMap_termCells_getElem? {ts : List Term} {k j : Nat} (hk : k < ts.length) (hj : j < 8) :
    (ts.flatMap termCells)[8 * k + j]? = (termCells ts[k])[j]? := by
  induction ts generalizing k with
  | nil => simp at hk
  | cons t ts ih =>
    rw [List.flatMap_cons]
    cases k with
    | zero =>
      rw [Nat.mul_zero, Nat.zero_add]
      exact List.getElem?_append_left hj
    | succ k =>
      have hsub : 8 * (k + 1) + j - 8 = 8 * k + j := by omega
      rw [List.getElem?_append_right (by simp; omega), termCells_length, hsub]
      exact ih (by simpa using hk)

/-- Cell `j` of the k-th term of a layout that passes no address twice. -/
theorem Memory.layout_get {ts : List Term} (m : Memory) (base : Word) (hn : 8 * ts.length ≤ 2 ^ 64) {k j : Nat}
    (hk : k < ts.length) (hj : j < 8) :
    (m.layout base ts).get (base + BitVec.ofNat 64 (8 * k) + BitVec.ofNat 64 j).toNat = (termCells ts[k])[j]? := by
  have hlen := flatMap_termCells_length ts
  have hlt : 8 * k + j < (ts.flatMap termCells).length := by omega
  rw [← add_ofNat_add, Memory.layout_eq_setCells,
    Memory.get_setCells_inside _ m base _ hlt (by omega), ← List.getElem?_eq_getElem hlt,
    flatMap_termCells_getElem? hk hj]

theorem termCells_getElem?_tail (t : Term) {j : Nat} (h : 1 ≤ j) (hj : j < 8) :
    (termCells t)[j]? = some .insTail := by
  obtain ⟨n, rfl⟩ := Nat.exists_eq_add_of_le' h
  exact List.getElem?_replicate_of_lt (by omega)

/-- The k-th term of a layout that ends below the top stands at `base + 8k` (R89). -/
theorem termStandsAt_layout {ts : List Term} {base : Word} (s : State) (htop : base.toNat + 8 * ts.length ≤ 2 ^ 64)
    {k : Nat} (hk : k < ts.length) :
    TermStandsAt ts[k] (base + BitVec.ofNat 64 (8 * k)) { s with mem := s.mem.layout base ts } := by
  have hcell {j : Nat} (hj : j < 8) :
      State.cell { s with mem := s.mem.layout base ts } (base + BitVec.ofNat 64 (8 * k) + BitVec.ofNat 64 j) =
        (termCells ts[k])[j]? :=
    Memory.layout_get s.mem base (by omega) hk hj
  refine ⟨.inl ?_, ?_, fun j h1 h8 => ?_⟩
  · simp only [BitVec.toNat_add, BitVec.toNat_ofNat]
    omega
  · simpa [termCells] using hcell (j := 0) (by omega)
  · exact (hcell h8).trans (termCells_getElem?_tail _ h1 h8)

/-- A label has the address after the instructions before it; `isInstr` tells them from labels. -/
theorem mem_labelValues {isInstr : Line → Bool} (hinstr : ∀ op os, isInstr (.instr op os) = true)
    (hlabel : ∀ n, isInstr (.label n) = false) (before after : List Line) (n : Nat) (base : Word) :
    (n, base + BitVec.ofNat 64 (8 * (before.filter isInstr).length)) ∈
      labelValues base (before ++ .label n :: after) := by
  induction before generalizing base with
  | nil => simp [labelValues]
  | cons l ls ih =>
    cases l with
    | label m => simpa [labelValues, hlabel] using .inr (ih base)
    | instr op os =>
      have haddr (k : Nat) : base + BitVec.ofNat 64 (8 * (k + 1)) = base + 8 + BitVec.ofNat 64 (8 * k) := by
        rw [Nat.mul_succ, Nat.add_comm, add_ofNat_add]
        rfl
      simpa [labelValues, hinstr, haddr] using ih (base + 8)

/-- Settles O60: the cells of a layout, and the labels by induction on the lines before one. -/
theorem layoutPlacesInstructionsAndLabels : Obligations.LayoutPlacesInstructionsAndLabels := by
  refine ⟨fun is base s htop k hk => ?_, mem_labelValues (fun _ _ => rfl) (fun _ => rfl)⟩
  have hk' : k < (is.map Instr.term).length := by simpa using hk
  simpa [standsAt_iff] using termStandsAt_layout s (by simpa using htop) hk'

end Machine

end Sys2Proof

/-! PROOFS. Operands and condition codes (40_operands_and_condition_codes.md): operands as values, addresses and
locations, the overflow predicates, and what the condition codes read. -/

namespace Sys2Proof

/-- The flags a condition code needs, in the order the model reads them (R119; log 15). -/
def CondCode.flags : CondCode → List Flag
  | .eq | .neq => [.zf]
  | .lt | .ge => [.sf, .of]
  | .le | .gt => [.sf, .of, .zf]

namespace Machine

/-! ## Registers -/

theorem readGpr_of_gpr_none {r : Gpr} {s : State} (h : s.gpr r = none) : readGpr r s = .error (.uninit (.reg r)) := by
  simp only [readGpr, h]

/-- Settles O10, from the two cases of `readGpr`. -/
theorem registerReadReturnsItsContents : Obligations.RegisterReadReturnsItsContents :=
  fun _ _ => ⟨fun _ => readGpr_of_gpr, readGpr_of_gpr_none, rfl⟩

/-! ## Addresses, values, locations -/

theorem addr_ind3 (d : Word) (r : Reg) (s : State) :
    addr (.ind3 d r) s = readReg r s >>= fun b => .ok (b + d) := rfl

/-- Settles O11: the base is `x[r]` and goes on to the sum, or is the fault. -/
theorem effectiveAddressIsBasePlusDisplacement : Obligations.EffectiveAddressIsBasePlusDisplacement := by
  intro d r s
  refine ⟨rfl, fun b hb => ⟨hb, ?_⟩, fun f hf => ⟨hf, ?_⟩, fun i a h => ?_, fun a h => ?_⟩
  · rw [addr_ind3, hb, bind_ok, BitVec.add_def]
  · rw [addr_ind3, hf, bind_error]
  · cases addr_isInd h
  · cases addr_isInd h

/-- Settles O12: the three memory kinds read at their address (`val_of_isInd`). -/
theorem operandValueByKind : Obligations.OperandValueByKind := by
  intro i d r op s
  refine ⟨rfl, rfl, fun hop => ⟨fun a ha => ?_, fun f hf => ?_⟩, rfl⟩
  · rw [val_of_isInd s hop, ha, bind_ok]
  · rw [val_of_isInd s hop, hf, bind_error]

theorem setGpr_gprsSameBut (s : State) (r : Gpr) (v : Word) : GprsSameBut [r] s (s.setGpr r v) :=
  fun _ hq => setGpr_gpr_other s v (List.ne_of_not_mem_cons hq)

/-- Settles O16: a register store is `setGpr`; the three memory kinds write at their address (`store_of_isInd`). -/
theorem storeWritesTheLocation : Obligations.StoreWritesTheLocation := by
  intro op r i v s
  refine ⟨?_, fun hop => ⟨fun a ha => ?_, fun f hf => ?_⟩, fun t h => ?_, fun t h => ?_⟩
  · exact ⟨s.setGpr r v, rfl, setGpr_gpr_same s r v, setGpr_gprsSameBut s r v, rfl, rfl, fun _ => rfl, rfl, rfl, rfl⟩
  · rw [store_of_isInd v s hop, ha, bind_ok]
  · rw [store_of_isInd v s hop, hf, bind_error]
  · exact store_ok_iff.1 ⟨t, h⟩
  · exact store_ok_iff.1 ⟨t, h⟩

/-! ## The overflow predicates -/

theorem outside64_eq_not_fitsSigned (e : Int) : outside64 e = !fitsSigned e := by
  rw [outside64, fitsSigned, ← decide_not, decide_eq_decide]
  omega

theorem ovfAdd_eq_outside64 (d x : Word) : ovfAdd d x = outside64 (d.toInt + x.toInt) :=
  (outside64_eq_not_fitsSigned _).symm

theorem ovfSub_eq_outside64 (d x : Word) : ovfSub d x = outside64 (d.toInt - x.toInt) :=
  (outside64_eq_not_fitsSigned _).symm

theorem ovfMul_eq_outside64 (d x : Word) : ovfMul d x = outside64 (d.toInt * x.toInt) :=
  (outside64_eq_not_fitsSigned _).symm

/-- The range test in the form of the overflow predicates of `BitVec`. -/
theorem outside64_eq_or (e : Int) : outside64 e = (decide (e ≥ 2 ^ 63) || decide (e < -(2 ^ 63))) := by
  rw [outside64, ← Bool.decide_or, decide_eq_decide]
  omega

theorem ovfAdd_eq_saddOverflow (d x : Word) : ovfAdd d x = d.saddOverflow x :=
  (ovfAdd_eq_outside64 d x).trans (outside64_eq_or _)

theorem ovfSub_eq_ssubOverflow (d x : Word) : ovfSub d x = d.ssubOverflow x :=
  (ovfSub_eq_outside64 d x).trans (outside64_eq_or _)

/-- The bit form of `ovf_add` (R117). -/
theorem ovfAdd_iff_msb (d x : Word) : ovfAdd d x = true ↔ d.msb = x.msb ∧ (d + x).msb ≠ d.msb := by
  simp [ovfAdd_eq_saddOverflow, BitVec.saddOverflow_eq]

/-- The bit form of `ovf_sub` (R117). -/
theorem ovfSub_iff_msb (d x : Word) : ovfSub d x = true ↔ d.msb ≠ x.msb ∧ (d - x).msb ≠ d.msb := by
  rw [ovfSub_eq_ssubOverflow, BitVec.ssubOverflow_eq]
  cases d.msb <;> cases x.msb <;> simp

/-- Reduction to the low 64 bits keeps exactly the integers that fit. -/
theorem eq_bmod_iff_not_outside64 (e : Int) : e = e.bmod (2 ^ 64) ↔ outside64 e = false := by
  rw [eq_comm, Int.bmod_eq_iff (by decide), outside64, decide_eq_false_iff_not]
  omega

/-- A 128-bit product differs from the sign extension of its low half exactly where it does not fit. -/
theorem outside64_iff_signExtend_ne {p : Int} (hlo : -(2 ^ 126) ≤ p) (hhi : p ≤ 2 ^ 126) :
    outside64 p = true ↔ BitVec.ofInt 128 p ≠ (BitVec.ofInt 64 p).signExtend 128 := by
  have hself : (BitVec.ofInt 128 p).toInt = p := BitVec.toInt_ofInt_eq_self (by decide) (by omega) (by omega)
  rw [ne_eq, ← BitVec.toInt_inj, BitVec.toInt_signExtend_of_le (by decide), BitVec.toInt_ofInt (n := 64), hself,
    eq_bmod_iff_not_outside64, Bool.not_eq_false]

/-- The bit form of `ovf_mul` (R117). -/
theorem ovfMul_iff_signExtend_ne (d x : Word) : ovfMul d x = true ↔
    BitVec.ofInt 128 (d.toInt * x.toInt) ≠ (BitVec.ofInt 64 (d.toInt * x.toInt)).signExtend 128 := by
  rw [ovfMul_eq_outside64]
  exact outside64_iff_signExtend_ne BitVec.le_toInt_mul_toInt BitVec.toInt_mul_toInt_le

/-- Settles O18, predicate by predicate. -/
theorem overflowPredicatesAndBitForms : Obligations.OverflowPredicatesAndBitForms :=
  fun d x => ⟨ovfAdd_eq_outside64 d x, ovfSub_eq_outside64 d x, ovfMul_eq_outside64 d x, ovfAdd_iff_msb d x,
    ovfSub_iff_msb d x, ovfMul_iff_signExtend_ne d x⟩

/-! ## The flags a condition code needs -/

theorem readFlag_eq_error {g : Flag} {s : State} {f : Fault} :
    readFlag g s = .error f ↔ f = .uninit (.flag g) ∧ s.flag g = none := by
  unfold readFlag
  cases s.flag g <;> simp [eq_comm]

/-- `x` reads the flags `gs` of `s` and does nothing else that can fail: it answers only where all of them hold a
value, and its fault names one that holds none. -/
structure ReadsFlags {α : Type} (s : State) (gs : List Flag) (x : Except Fault α) : Prop where
  valued : ∀ a, x = .ok a → ∀ g ∈ gs, (s.flag g).isSome
  missing : ∀ f, x = .error f → ∃ g ∈ gs, f = .uninit (.flag g) ∧ s.flag g = none

theorem ReadsFlags.ok {α : Type} (s : State) (a : α) : ReadsFlags s [] (.ok a : Except Fault α) where
  valued _ _ _ hg := by cases hg
  missing _ h := by cases h

theorem readFlag_readsFlags (g : Flag) (s : State) : ReadsFlags s [g] (readFlag g s) where
  valued b h q hq := by
    rw [List.mem_singleton.1 hq, readFlag_eq_ok.1 h]
    rfl
  missing f h := ⟨g, List.mem_singleton_self g, readFlag_eq_error.1 h⟩

/-- Statements one after the other read the flags of both. -/
theorem ReadsFlags.bind {α β : Type} {s : State} {gs hs : List Flag} {x : Except Fault α} {k : α → Except Fault β}
    (hx : ReadsFlags s gs x) (hk : ∀ a, ReadsFlags s hs (k a)) : ReadsFlags s (gs ++ hs) (x >>= k) where
  valued b h g hg := by
    obtain ⟨a, ha, hb⟩ := bind_eq_ok.1 h
    rcases List.mem_append.1 hg with hg | hg
    · exact hx.valued a ha g hg
    · exact (hk a).valued b hb g hg
  missing f h := by
    rcases bind_eq_error.1 h with hf | ⟨a, -, hf⟩
    · obtain ⟨g, hg, hmissing⟩ := hx.missing f hf
      exact ⟨g, List.mem_append_left hs hg, hmissing⟩
    · obtain ⟨g, hg, hmissing⟩ := (hk a).missing f hf
      exact ⟨g, List.mem_append_right gs hg, hmissing⟩

theorem ReadsFlags.ok_iff {α : Type} {s : State} {gs : List Flag} {x : Except Fault α} (hx : ReadsFlags s gs x) :
    (∃ a, x = .ok a) ↔ ∀ g ∈ gs, (s.flag g).isSome := by
  refine ⟨fun ⟨a, ha⟩ => hx.valued a ha, fun hvalued => ?_⟩
  cases hres : x with
  | ok a => exact ⟨a, rfl⟩
  | error f =>
    obtain ⟨g, hg, -, hnone⟩ := hx.missing f hres
    simpa [hnone] using hvalued g hg

theorem condReadable_iff {cc : CondCode} {s : State} : condReadable cc s ↔ ∀ g ∈ cc.flags, (s.flag g).isSome := by
  cases cc <;> simp [condReadable, CondCode.flags, State.flag]

theorem condLt_readsFlags (s : State) : ReadsFlags s [.sf, .of] (condLt s) :=
  (readFlag_readsFlags .sf s).bind fun _ => (readFlag_readsFlags .of s).bind fun _ => .ok s _

theorem condLe_readsFlags (s : State) : ReadsFlags s [.sf, .of, .zf] (condLe s) :=
  (condLt_readsFlags s).bind fun _ => (readFlag_readsFlags .zf s).bind fun _ => .ok s _

theorem condition_readsFlags (cc : CondCode) (s : State) : ReadsFlags s cc.flags (condition cc s) := by
  cases cc with
  | eq => exact readFlag_readsFlags .zf s
  | neq => exact (readFlag_readsFlags .zf s).bind fun _ => .ok s _
  | lt => exact condLt_readsFlags s
  | ge => exact (condLt_readsFlags s).bind fun _ => .ok s _
  | le => exact condLe_readsFlags s
  | gt => exact (condLe_readsFlags s).bind fun _ => .ok s _

/-! ## The condition codes on their flags -/

theorem condLt_of_flags {s : State} {sf ov : Bool} (hsf : s.flag .sf = some sf) (hov : s.flag .of = some ov) :
    condLt s = .ok (sf != ov) := by
  rw [condLt, readFlag_eq_ok.2 hsf, bind_ok, readFlag_eq_ok.2 hov, bind_ok, pure_eq_ok]

theorem condLe_of_flags {s : State} {sf ov zf : Bool} (hsf : s.flag .sf = some sf) (hov : s.flag .of = some ov)
    (hzf : s.flag .zf = some zf) : condLe s = .ok (sf != ov || zf) := by
  rw [condLe, condLt_of_flags hsf hov, bind_ok, readFlag_eq_ok.2 hzf, bind_ok, pure_eq_ok]

theorem condition_neq (s : State) : condition .neq s = condition .eq s >>= fun b => .ok (!b) := rfl
theorem condition_ge (s : State) : condition .ge s = condition .lt s >>= fun b => .ok (!b) := rfl
theorem condition_gt (s : State) : condition .gt s = condition .le s >>= fun b => .ok (!b) := rfl

/-- Settles O19: the values code by code, the faults from the list of flags that a code reads. -/
theorem conditionCodesReadTheirFlags : Obligations.ConditionCodesReadTheirFlags := by
  intro s sf ov zf
  refine ⟨fun hzf => ?_, fun hsf hov => ?_, fun hsf hov hzf => ?_, fun cc => ⟨?_, fun f hf => ?_⟩⟩
  · have heq : condition .eq s = .ok zf := readFlag_eq_ok.2 hzf
    exact ⟨heq, by rw [condition_neq, heq, bind_ok]⟩
  · have hlt : condition .lt s = .ok (sf != ov) := condLt_of_flags hsf hov
    exact ⟨hlt, by rw [condition_ge, hlt, bind_ok, bne, Bool.not_not]⟩
  · have hle : condition .le s = .ok (sf != ov || zf) := condLe_of_flags hsf hov hzf
    exact ⟨hle, by rw [condition_gt, hle, bind_ok, Bool.not_or, bne, Bool.not_not]⟩
  · rw [(condition_readsFlags cc s).ok_iff, condReadable_iff]
  · obtain ⟨g, hg, hf, hnone⟩ := (condition_readsFlags cc s).missing f hf
    refine ⟨g, hf, hnone, ?_, ?_⟩
    · rintro (rfl | rfl) <;> exact List.mem_singleton.1 hg
    · rintro (rfl | rfl) rfl <;> exact absurd hg (by decide)

/-! ## The condition codes after a comparison -/

theorem sub_beq_zero (a b : Word) : (a - b == 0) = decide (a.toInt = b.toInt) := by
  rw [Bool.beq_eq_decide_eq, decide_eq_decide, BitVec.toInt_inj]
  exact sub_eq_zero

/-- The sign of a difference, corrected for overflow, is the signed comparison (R126). -/
theorem sub_msb_bne_ovfSub (a b : Word) : ((a - b).msb != ovfSub a b) = decide (a.toInt < b.toInt) := by
  cases hov : ovfSub a b with
  | false =>
    have hexact : (a - b).toInt = a.toInt - b.toInt :=
      BitVec.toInt_sub_of_not_ssubOverflow (by simp [← ovfSub_eq_ssubOverflow, hov])
    rw [Bool.bne_false, BitVec.msb_eq_toInt, hexact, decide_eq_decide]
    omega
  | true =>
    obtain ⟨hsigns, hresult⟩ := (ovfSub_iff_msb a b).1 hov
    rw [Bool.bne_true, Bool.not_eq.2 hresult, BitVec.msb_eq_toInt, decide_eq_decide]
    simp only [BitVec.msb_eq_toInt, ne_eq, decide_eq_decide] at hsigns
    omega

/-- How `neq`, `gt` and `ge` answer, from the answer of the code each negates (R121, R124, R125). -/
theorem bind_not_decide {x : Except Fault Bool} {p q : Prop} [Decidable p] [Decidable q] (h : x = .ok (decide p))
    (hpq : ¬ p ↔ q) : (x >>= fun b => .ok (!b)) = .ok (decide q) := by
  rw [h, bind_ok, ← decide_not, decide_eq_decide.2 hpq]

/-- A completed `cmpq` or `subq` leaves the flags of `val(SRC2) - val(SRC1)` (R142, R210). -/
theorem flags_of_comparison {src1 src2 : Operand} {s t : State} {a b : Word} (ha : val src2 s = .ok a)
    (hb : val src1 s = .ok b) (h : exec (.cmpq src1 src2) s = .next t ∨ exec (.subq src1 src2) s = .next t) :
    t.flags = flagsOf (ovfSub a b) (a - b) := by
  rcases h with h | h
  · obtain ⟨x, d, hx, hd, rfl⟩ := execCmpq_next h
    cases hb.symm.trans hx
    cases ha.symm.trans hd
    rfl
  · obtain ⟨x, d, u, hx, hd, -, rfl⟩ := execSubq_next h
    cases hb.symm.trans hx
    cases ha.symm.trans hd
    rfl

/-- Settles O20: the codes read the flags of the difference, which say the signed order and equality. -/
theorem conditionCodesAreSignedComparisons : Obligations.ConditionCodesAreSignedComparisons := by
  intro src1 src2 s t a b ha hb h
  have hflags := flags_of_comparison ha hb h
  have hsf : t.flags.sf = some (a - b).msb := by rw [hflags]; rfl
  have hov : t.flags.of = some (ovfSub a b) := by rw [hflags]; rfl
  have hzf : t.flags.zf = some (a - b == 0) := by rw [hflags]; rfl
  have heq : condition .eq t = .ok (decide (a.toInt = b.toInt)) := by
    rw [← sub_beq_zero]
    exact readFlag_eq_ok.2 hzf
  have hlt : condition .lt t = .ok (decide (a.toInt < b.toInt)) := by
    rw [← sub_msb_bne_ovfSub]
    exact condLt_of_flags hsf hov
  have hle : condition .le t = .ok (decide (a.toInt ≤ b.toInt)) := by
    rw [decide_eq_decide.2 le_iff_lt_or_eq, Bool.decide_or, ← sub_msb_bne_ovfSub, ← sub_beq_zero]
    exact condLe_of_flags hsf hov hzf
  exact ⟨heq, bind_not_decide heq Iff.rfl, hlt, hle, bind_not_decide hle not_le, bind_not_decide hlt not_lt⟩

/-! ## The step -/

/-- Settles O6: the fetch finds the instruction, and entering it changes `rip` and the draw number alone. -/
theorem stepRunsTheDecodedInstruction : Obligations.StepRunsTheDecodedInstruction := by
  intro i s hne hi hw
  refine ⟨?_, rfl, rfl, rfl, rfl, rfl, rfl, rfl⟩
  have hadmits : admits i (enterInstr s) = true := hw
  simp only [step, if_neg hne, fetch_eq_some.2 hi, if_pos hadmits]

end Machine

end Sys2Proof

/-! PROOFS. Arithmetic (41_arithmetic.md): results, flags, faults and completion of `negq addq subq imulq incq decq`,
and what they, the logic instructions with flags, `leaq` and `cmpq` leave unchanged. -/

namespace Sys2Proof.Machine

/-! ## The last statements of an instruction: the store and the flags -/

/-- Store a result and set the flags: how the instructions end that write `DEST` and flags (R116, R140 to R145). -/
def storeWithFlags (dst : Operand) (v : Word) (f : Flags) (s : State) : Except Fault State :=
  store dst v s >>= fun u => .ok (u.withFlags f)

/-- How such an instruction ends: the fault of the store, or for a writable operand the state the store left with the
flags set. -/
theorem storeWithFlags_result (dst : Operand) (v : Word) (f : Flags) (s : State) :
    (∀ e, store dst v s = .error e → outcome (storeWithFlags dst v f s) = .fault e) ∧
      (Writable dst 8 s → ∃ u, store dst v s = .ok u ∧ outcome (storeWithFlags dst v f s) = .next (u.withFlags f)) := by
  refine ⟨fun e he => ?_, fun hw => ?_⟩
  · rw [storeWithFlags, he, bind_error, outcome_error]
  · obtain ⟨u, hu⟩ := store_ok_iff.2 hw
    exact ⟨u, hu, by rw [storeWithFlags, hu, bind_ok, outcome_ok]⟩

/-- An instruction that reads `DEST`, then stores and sets flags, has the one-operand result. -/
theorem unaryResult_of_exec_eq {mk : Operand → Instr} {res : Word → Word} {fl : Word → Flags → Flags}
    (h : ∀ dst s, exec (mk dst) s = outcome (val dst s >>= fun d => storeWithFlags dst (res d) (fl d s.flags) s)) :
    UnaryResult mk res fl := by
  intro dst s
  rw [h]
  refine ⟨fun f hf => ?_, fun d hd => ?_⟩
  · rw [hf, bind_error, outcome_error]
  · rw [hd, bind_ok]
    exact storeWithFlags_result dst (res d) (fl d s.flags) s

/-- An instruction that reads `SRC` and `DEST`, then stores and sets flags, has the two-operand result. -/
theorem binaryResult_of_exec_eq {mk : Operand → Operand → Instr} {res : Word → Word → Word}
    {fl : Word → Word → Flags}
    (h : ∀ src dst s, exec (mk src dst) s = outcome (val src s >>= fun x => val dst s >>= fun d =>
      storeWithFlags dst (res d x) (fl d x) s)) : BinaryResult mk res fl := by
  intro src dst s
  rw [h]
  refine ⟨fun f hf => ?_, fun x hx => ?_⟩
  · rw [hf, bind_error, outcome_error]
  · rw [hx, bind_ok]
    refine ⟨fun f hf => ?_, fun d hd => ?_⟩
    · rw [hf, bind_error, outcome_error]
    · rw [hd, bind_ok]
      exact storeWithFlags_result dst (res d x) (fl d x) s

/-! ## Signed results as quadwords -/

theorem ofInt_neg_toInt (d : Word) : BitVec.ofInt 64 (-d.toInt) = 0 - d := by
  rw [BitVec.ofInt_neg, BitVec.ofInt_toInt, zero_sub]

theorem ofInt_toInt_mul_toInt (d x : Word) : BitVec.ofInt 64 (d.toInt * x.toInt) = d * x := by
  rw [BitVec.ofInt_mul, BitVec.ofInt_toInt, BitVec.ofInt_toInt]

/-- The successor overflows exactly for `MAX_INT` (R144). -/
theorem ovfAdd_one (d : Word) : ovfAdd d 1 = (d == 0x7fffffffffffffff) := by
  have hone : (1 : Word).toInt = 1 := rfl
  have hmax : (0x7fffffffffffffff : Word).toInt = 2 ^ 63 - 1 := rfl
  have hlo := d.le_toInt
  have hhi := d.toInt_lt
  rw [ovfAdd_eq_outside64, outside64, Bool.beq_eq_decide_eq, decide_eq_decide, ← BitVec.toInt_inj, hone, hmax]
  omega

/-- The predecessor overflows exactly for `MIN_INT` (R145). -/
theorem ovfSub_one (d : Word) : ovfSub d 1 = (d == 0x8000000000000000) := by
  have hone : (1 : Word).toInt = 1 := rfl
  have hmin : (0x8000000000000000 : Word).toInt = -2 ^ 63 := rfl
  have hlo := d.le_toInt
  have hhi := d.toInt_lt
  rw [ovfSub_eq_outside64, outside64, Bool.beq_eq_decide_eq, decide_eq_decide, ← BitVec.toInt_inj, hone, hmin]
  omega

/-! ## Results -/

/-- Settles O21: the signed negation, reduced, is the difference from 0. -/
theorem negqResult : Obligations.NegqResult := by
  unfold Obligations.NegqResult
  simp only [ofInt_neg_toInt]
  exact unaryResult_of_exec_eq fun _ _ => rfl

/-- Settles O22: the overflow predicate is the range test of the signed sum. -/
theorem addqResult : Obligations.AddqResult := by
  unfold Obligations.AddqResult
  simp only [← ovfAdd_eq_outside64]
  exact binaryResult_of_exec_eq fun _ _ _ => rfl

/-- Settles O23: the overflow predicate is the range test of the signed difference. -/
theorem subqResult : Obligations.SubqResult := by
  unfold Obligations.SubqResult
  simp only [← ovfSub_eq_outside64]
  exact binaryResult_of_exec_eq fun _ _ _ => rfl

/-- Settles O25: adding or subtracting 1 overflows at one end of the signed range alone. -/
theorem incqAndDecqResult : Obligations.IncqAndDecqResult := by
  unfold Obligations.IncqAndDecqResult
  simp only [← ovfAdd_one, ← ovfSub_one]
  exact ⟨unaryResult_of_exec_eq fun _ _ => rfl, unaryResult_of_exec_eq fun _ _ => rfl⟩

/-- `imulq` with a register as its second operand (R143). -/
theorem exec_imulq_gpr (src : Operand) (r : Gpr) (s : State) :
    exec (.imulq src (.reg (.gpr r))) s = outcome (val src s >>= fun x => readGpr r s >>= fun d =>
      .ok ((s.setGpr r (d * x)).withFlags
        { of := some (ovfMul d x), sf := some (drawBit 0 s), zf := some (drawBit 1 s) })) := rfl

/-- Settles O24: the register gets the product; the two open flags are the draws of the step. -/
theorem imulqResult : Obligations.ImulqResult := by
  intro src r s
  rw [exec_imulq_gpr]
  refine ⟨fun f hf => ?_, fun x hx => ⟨fun hr => ?_, fun d hd => ⟨drawBit 0 s, drawBit 1 s, ?_⟩⟩⟩
  · rw [hf, bind_error, outcome_error]
  · rw [hx, bind_ok, readGpr_of_gpr_none hr, bind_error, outcome_error]
  · rw [hx, bind_ok, readGpr_of_gpr hd, bind_ok, outcome_ok, ofInt_toInt_mul_toInt, ovfMul_eq_outside64]

/-! ## Frames -/

/-- Settles O42: each of the eight ends in one store of eight bytes and the flags (`destFrame_store`). -/
theorem frameOfArithmeticAndLogic : Obligations.FrameOfArithmeticAndLogic := by
  intro src dst s t
  simp only [List.forall_mem_cons]
  refine ⟨fun h => ?negq, fun h => ?addq, fun h => ?subq, fun h => ?incq, fun h => ?decq, fun h => ?andq,
    fun h => ?orq, fun h => ?xorq, List.forall_mem_nil _⟩
  case negq => obtain ⟨d, u, -, hu, rfl⟩ := execNegq_next h; exact (destFrame_store hu _).1
  case addq => obtain ⟨x, d, u, -, -, hu, rfl⟩ := execAddq_next h; exact (destFrame_store hu _).1
  case subq => obtain ⟨x, d, u, -, -, hu, rfl⟩ := execSubq_next h; exact (destFrame_store hu _).1
  case incq => obtain ⟨d, u, -, hu, rfl⟩ := execIncq_next h; exact (destFrame_store hu _).1
  case decq => obtain ⟨d, u, -, hu, rfl⟩ := execDecq_next h; exact (destFrame_store hu _).1
  case andq | orq | xorq => obtain ⟨x, d, u, -, -, hu, rfl⟩ := execLogic_next h; exact (destFrame_store hu _).1

/-- Settles O45: a register write, the flags, or both. -/
theorem frameOfRegisterOnlyInstructions : Obligations.FrameOfRegisterOnlyInstructions := by
  intro src dst s t
  refine ⟨fun h => ?imulq, fun h => ?leaq, fun h => ?cmpq⟩
  case imulq =>
    obtain ⟨r, x, d, rfl, -, -, rfl⟩ := execImulq_next h
    exact ⟨setGpr_gprsSameBut s r _, fun _ => rfl, rfl, rfl, rfl, rfl⟩
  case leaq =>
    obtain ⟨r, a, rfl, -, rfl⟩ := execLeaq_next h
    exact ⟨setGpr_gprsSameBut s r a, fun _ => rfl, rfl, rfl, rfl, rfl, rfl⟩
  case cmpq =>
    obtain ⟨x, d, -, -, rfl⟩ := execCmpq_next h
    exact ⟨rfl, fun _ => rfl, rfl, rfl, rfl, rfl⟩

end Sys2Proof.Machine

/-! PROOFS. Logic (42_logic.md): results, flags, faults and completion of `notq andq orq xorq`, and what the instructions
that write a destination and no flag leave unchanged. -/

namespace Sys2Proof.Machine

/-- A bare store ends an instruction as a store that sets the flags to what they were: it writes none (R160). -/
theorem store_eq_storeWithFlags (dst : Operand) (v : Word) (s : State) :
    store dst v s = storeWithFlags dst v s.flags s := by
  unfold storeWithFlags
  cases hu : store dst v s with
  | error e => rfl
  | ok u => rw [bind_ok, ← store_flags hu]; rfl

/-- Settles O26: 64 ones less a quadword is its complement; the flags stay as they were. -/
theorem notqResult : Obligations.NotqResult := by
  unfold Obligations.NotqResult
  have hones : (0xffffffffffffffff : Word) = BitVec.allOnes 64 := rfl
  simp only [hones, BitVec.allOnes_sub_eq_not]
  refine unaryResult_of_exec_eq fun dst s => ?_
  simp only [← store_eq_storeWithFlags]
  rfl

/-- Settles O27: the three share one shape, which ends in a store and the flags. -/
theorem logicResult : Obligations.LogicResult :=
  ⟨binaryResult_of_exec_eq fun _ _ _ => rfl, binaryResult_of_exec_eq fun _ _ _ => rfl,
    binaryResult_of_exec_eq fun _ _ _ => rfl⟩

/-- `setb` with each code is one meaning, given the code (R173). -/
theorem exec_setb (cc : CondCode) (dst : Operand) (s : State) :
    exec (Instr.setb cc dst) s = outcome (setbOp cc dst s) := by
  cases cc <;> rfl

/-- The frame of a store that ends an instruction: eight bytes at the destination, no flag. -/
theorem destFrame_and_flags_of_store {dst : Operand} {v : Word} {s t : State} (h : store dst v s = .ok t) :
    DestFrame dst 8 s t ∧ t.flags = s.flags :=
  ⟨(destFrame_store h s.flags).2, store_flags h⟩

/-- Settles O43: `notq` and `movq` end in a store, `setb` in the write of one byte (`destFrame_storeByte`). -/
theorem frameOfDestinationWithoutFlags : Obligations.FrameOfDestinationWithoutFlags := by
  intro src dst cc s t
  simp only [List.forall_mem_cons]
  refine ⟨⟨fun h => ?notq, fun h => ?movq, List.forall_mem_nil _⟩, fun h => ?setb⟩
  case notq => obtain ⟨d, -, ht⟩ := execNotq_next h; exact destFrame_and_flags_of_store ht
  case movq => obtain ⟨x, -, ht⟩ := execMovq_next h; exact destFrame_and_flags_of_store ht
  case setb =>
    rw [exec_setb, outcome_eq_next] at h
    obtain ⟨c, -, ht⟩ := setbOp_ok h
    exact destFrame_storeByte ht

end Sys2Proof.Machine

/-! PROOFS. Bit manipulation (43_bit_manipulation.md): results, flags, faults and completion of `sarq shlq shrq` and of
`setb`, and what the shifts leave unchanged. -/

namespace Sys2Proof.Machine

/-! ## The results of the shifts as numbers -/

/-- An arithmetic shift is the floor of the signed quotient, for every amount (R170). -/
theorem sshiftRight_eq_ofInt_ediv (d : Word) (n : Nat) : d.sshiftRight n = BitVec.ofInt 64 (d.toInt / 2 ^ n) := by
  rw [BitVec.sshiftRight, Int.shiftRight_eq_div_pow, Nat.cast_pow, Nat.cast_ofNat]

/-- A left shift is the unsigned product, reduced, for every amount (R171). -/
theorem shiftLeft_eq_ofNat_mul (d : Word) (n : Nat) : d <<< n = BitVec.ofNat 64 (d.toNat * 2 ^ n) := by
  apply BitVec.eq_of_toNat_eq
  rw [BitVec.toNat_shiftLeft, Nat.shiftLeft_eq, BitVec.toNat_ofNat]

/-- A logical shift right is the unsigned quotient, for every amount (R172). -/
theorem ushiftRight_eq_ofNat_div (d : Word) (n : Nat) : d >>> n = BitVec.ofNat 64 (d.toNat / 2 ^ n) := by
  rw [← Nat.shiftRight_eq_div_pow, ← BitVec.toNat_ushiftRight, BitVec.ofNat_toNat, BitVec.setWidth_eq]

/-- By 64 or more, copies of the sign bit are left of a quadword (R174). -/
theorem sshiftRight_of_le {d : Word} {n : Nat} (h : 64 ≤ n) :
    d.sshiftRight n = if d.msb then 0xffffffffffffffff else 0 := by
  have hones : (0xffffffffffffffff : Word) = BitVec.allOnes 64 := rfl
  ext i hi
  rw [BitVec.getElem_sshiftRight, dif_neg (by omega), hones]
  cases d.msb with
  | false => exact (BitVec.getElem_zero hi).symm
  | true => exact (BitVec.getElem_allOnes i hi).symm

/-- A shift by more than 64 is one by 64, all bits having left (log 17). -/
def Saturates (f : Word → Nat → Word) : Prop := ∀ d n, f d (min n 64) = f d n

theorem saturates_of_le {f : Word → Nat → Word} (h : ∀ d n, 64 ≤ n → f d 64 = f d n) : Saturates f := by
  intro d n
  rcases le_total n 64 with hn | hn
  · rw [min_eq_left hn]
  · rw [min_eq_right hn, h d n hn]

theorem saturates_sshiftRight : Saturates fun d n => d.sshiftRight n :=
  saturates_of_le fun _ _ h => (sshiftRight_of_le le_rfl).trans (sshiftRight_of_le h).symm

theorem saturates_shiftLeft : Saturates fun d n => d <<< n :=
  saturates_of_le fun _ _ h => (BitVec.shiftLeft_eq_zero le_rfl).trans (BitVec.shiftLeft_eq_zero h).symm

theorem saturates_ushiftRight : Saturates fun d n => d >>> n :=
  saturates_of_le fun _ _ h => (BitVec.ushiftRight_eq_zero le_rfl).trans (BitVec.ushiftRight_eq_zero h).symm

/-! ## The amount -/

theorem amount_of_isAmount {amt : Operand} {s : State} (h : amt.isAmount = true) : amount amt s = val amt s :=
  if_pos h

theorem shiftCount_of_le {a : Word} {s : State} (h : a.toNat ≤ 63) : shiftCount a s = .ok a.toNat := if_pos h

theorem shiftCount_of_fault {a : Word} {s : State} (h : 63 < a.toNat) (hp : s.config.shiftRange = .fault) :
    shiftCount a s = .error (.shiftRange a) := by
  rw [shiftCount, if_neg (by omega), hp]

theorem shiftCount_of_mask6 {a : Word} {s : State} (h : 63 < a.toNat) (hp : s.config.shiftRange = .mask6) :
    shiftCount a s = .ok (a.toNat % 64) := by
  rw [shiftCount, if_neg (by omega), hp]

theorem shiftCount_of_math {a : Word} {s : State} (h : 63 < a.toNat) (hp : s.config.shiftRange = .math) :
    shiftCount a s = .ok 64 := by
  rw [shiftCount, if_neg (by omega), hp]

/-- The model shifts by the amount of R174, and by 64 where that is more. -/
theorem shiftCount_of_shiftsBy {a : Word} {n : Nat} {s : State} (h : shiftsBy a n s) :
    shiftCount a s = .ok (min n 64) := by
  rcases h with ⟨ha, rfl⟩ | ⟨ha, hp, rfl⟩ | ⟨ha, hp, rfl⟩
  · rw [shiftCount_of_le ha, min_eq_left (by omega)]
  · rw [shiftCount_of_mask6 ha hp, min_eq_left (by omega)]
  · rw [shiftCount_of_math ha hp, min_eq_right (by omega)]

/-! ## The flags -/

/-- The flags after a shift by `n` with the result `r`, from those before it (R170 to R172). -/
def shiftedFlags (n : Nat) (r : Word) (ofAtOne : Bool) (old : Flags) : Flags :=
  if n = 0 then old
  else { of := if n = 1 then some ofAtOne else old.of, sf := some r.msb, zf := some (r == 0) }

theorem shiftFlags_eq_withFlags (n : Nat) (r : Word) (b : Bool) (u : State) :
    shiftFlags n r b u = u.withFlags (shiftedFlags n r b u.flags) := by
  unfold shiftFlags shiftedFlags
  split
  · rfl
  · split <;> rfl

theorem shiftedFlags_min (n : Nat) (r : Word) (b : Bool) (old : Flags) :
    shiftedFlags (min n 64) r b old = shiftedFlags n r b old := by
  have h0 : min n 64 = 0 ↔ n = 0 := by omega
  have h1 : min n 64 = 1 ↔ n = 1 := by omega
  simp only [shiftedFlags, h0, h1]

/-- The last two statements of a shift are a store that sets these flags. -/
theorem store_then_shiftFlags (dst : Operand) (n : Nat) (r : Word) (b : Bool) (s : State) :
    (store dst r s >>= fun u => .ok (shiftFlags n r b u)) =
      storeWithFlags dst r (shiftedFlags n r b s.flags) s := by
  unfold storeWithFlags
  cases hu : store dst r s with
  | error e => rfl
  | ok u => rw [bind_ok, bind_ok, shiftFlags_eq_withFlags, store_flags hu]

/-! ## The shape of a shift -/

section

variable {f : Word → Nat → Word} {g : Word → Bool} {amt dst : Operand} {s : State} {a : Word}

theorem shiftOp_of_amount_error {e : Fault} (hamt : amt.isAmount = true) (ha : val amt s = .error e) :
    shiftOp f g amt dst s = .error e := by
  rw [shiftOp, amount_of_isAmount hamt, ha, bind_error]

theorem shiftOp_range_fault (hamt : amt.isAmount = true) (ha : val amt s = .ok a) (h63 : 63 < a.toNat)
    (hp : s.config.shiftRange = .fault) : shiftOp f g amt dst s = .error (.shiftRange a) := by
  rw [shiftOp, amount_of_isAmount hamt, ha, bind_ok, shiftCount_of_fault h63 hp, bind_error]

/-- Once its count is known, a shift reads `DEST` and ends in a store and the flags. -/
theorem shiftOp_of_count {n : Nat} (hamt : amt.isAmount = true) (ha : val amt s = .ok a)
    (hn : shiftCount a s = .ok n) :
    shiftOp f g amt dst s = val dst s >>= fun d =>
      storeWithFlags dst (f d n) (shiftedFlags n (f d n) (g d) s.flags) s := by
  rw [shiftOp, amount_of_isAmount hamt, ha, bind_ok, hn, bind_ok]
  simp only [← store_then_shiftFlags]
  rfl

/-- Under `mask6` a shift by more than 63 is the shift by the immediate amount modulo 64 (R174). -/
theorem shiftOp_mask6 (hamt : amt.isAmount = true) (ha : val amt s = .ok a) (h63 : 63 < a.toNat)
    (hp : s.config.shiftRange = .mask6) :
    shiftOp f g amt dst s = shiftOp f g (.imm (BitVec.ofNat 64 (a.toNat % 64))) dst s := by
  have hmod : (BitVec.ofNat 64 (a.toNat % 64)).toNat = a.toNat % 64 := by
    rw [BitVec.toNat_ofNat]
    omega
  have hcount : shiftCount (BitVec.ofNat 64 (a.toNat % 64)) s = .ok (a.toNat % 64) := by
    rw [shiftCount_of_le (by omega), hmod]
  rw [shiftOp_of_count hamt ha (shiftCount_of_mask6 h63 hp), shiftOp_of_count rfl rfl hcount]

/-- A completed shift leaves all but its eight bytes and its flags, and the flags by its count. -/
theorem shiftOp_frame {t : State} (h : shiftOp f g amt dst s = .ok t) (ha : val amt s = .ok a) :
    DestFrame dst 8 s t ∧
      ∀ n, shiftCount a s = .ok n → (n = 0 → t.flags = s.flags) ∧ (n ≠ 1 → t.flags.of = s.flags.of) := by
  obtain ⟨b, m, d, u, -, hb, hm, -, hu, rfl⟩ := shiftOp_ok h
  obtain ⟨fl, hfl, hzero, hother⟩ := shiftFlags_eq m (f d m) (g d) u
  rw [store_flags hu] at hzero hother
  cases ha.symm.trans hb
  rw [hfl]
  refine ⟨(destFrame_store hu fl).1, fun n hn => ?_⟩
  cases hn.symm.trans hm
  exact ⟨hzero, hother⟩

end

/-- An instruction whose meaning is a shift that saturates has the result of a shift. -/
theorem shiftResult_of_exec_eq {mk : Operand → Operand → Instr} {f : Word → Nat → Word} {g : Word → Bool}
    (hexec : ∀ amt dst s, exec (mk amt dst) s = outcome (shiftOp f g amt dst s)) (hsat : Saturates f) :
    ShiftResult mk f g := by
  intro amt dst s hamt
  rw [hexec]
  refine ⟨fun e he => ?_, fun a ha => ⟨fun h63 hp => ?_, fun n hn => ?_⟩⟩
  · rw [shiftOp_of_amount_error hamt he, outcome_error]
  · rw [shiftOp_range_fault hamt ha h63 hp, outcome_error]
  · have hcount (d : Word) : f d (min n 64) = f d n := hsat d n
    simp only [shiftOp_of_count hamt ha (shiftCount_of_shiftsBy hn), hcount, shiftedFlags_min]
    refine ⟨fun e he => ?_, fun d hd => ?_⟩
    · rw [he, bind_error, outcome_error]
    · rw [hd, bind_ok]
      exact storeWithFlags_result dst (f d n) (shiftedFlags n (f d n) (g d) s.flags) s

/-! ## Results of the shifts -/

/-- Settles O28: the arithmetic shift is the signed quotient, rounded down. -/
theorem sarqResult : Obligations.SarqResult := by
  unfold Obligations.SarqResult
  simp only [← sshiftRight_eq_ofInt_ediv]
  exact shiftResult_of_exec_eq (fun _ _ _ => rfl) saturates_sshiftRight

/-- Settles O29: the left shift is the unsigned product, reduced. -/
theorem shlqResult : Obligations.ShlqResult := by
  unfold Obligations.ShlqResult
  simp only [← shiftLeft_eq_ofNat_mul]
  exact shiftResult_of_exec_eq (fun _ _ _ => rfl) saturates_shiftLeft

/-- Settles O30: the logical shift right is the unsigned quotient. -/
theorem shrqResult : Obligations.ShrqResult := by
  unfold Obligations.ShrqResult
  simp only [← ushiftRight_eq_ofNat_div, BitVec.msb_eq_getLsbD_last]
  exact shiftResult_of_exec_eq (fun _ _ _ => rfl) saturates_ushiftRight

/-- What `math` leaves of a shift by more than 63, `r` being its result: `SF` and `ZF` from it, `OF` as it was
(R174). -/
theorem exec_of_shiftResult_math {mk : Operand → Operand → Instr} {res : Word → Nat → Word} {g : Word → Bool}
    (hmk : ShiftResult mk res g) {amt dst : Operand} {s : State} {a d r : Word} (hamt : amt.isAmount = true)
    (ha : val amt s = .ok a) (h63 : 63 < a.toNat) (hp : s.config.shiftRange = .math) (hd : val dst s = .ok d)
    (hw : Writable dst 8 s) (hr : res d a.toNat = r) :
    ∃ u, store dst r s = .ok u ∧
      exec (mk amt dst) s = .next (u.withFlags { of := s.flags.of, sf := some r.msb, zf := some (r == 0) }) := by
  obtain ⟨-, hamount⟩ := hmk amt dst s hamt
  obtain ⟨-, hshift⟩ := hamount a ha
  obtain ⟨-, hdest⟩ := hshift a.toNat (.inr (.inr ⟨h63, hp, rfl⟩))
  obtain ⟨-, hnext⟩ := hdest d hd
  have h0 : a.toNat ≠ 0 := by omega
  have h1 : a.toNat ≠ 1 := by omega
  simpa only [if_neg h0, if_neg h1, hr] using hnext hw

/-- Settles O31: the fault and `mask6` from the shape the three share, `math` from the result of each. -/
theorem shiftAmountOver63ByPolicy : Obligations.ShiftAmountOver63ByPolicy := by
  intro amt dst s a hamt ha h63
  refine ⟨fun hp => ?fault, fun hp => ?mask6, fun hp d hd hw => ?math⟩
  case fault =>
    simp only [List.forall_mem_cons]
    exact ⟨congrArg outcome (shiftOp_range_fault hamt ha h63 hp),
      congrArg outcome (shiftOp_range_fault hamt ha h63 hp), congrArg outcome (shiftOp_range_fault hamt ha h63 hp),
      List.forall_mem_nil _⟩
  case mask6 =>
    exact ⟨congrArg outcome (shiftOp_mask6 hamt ha h63 hp), congrArg outcome (shiftOp_mask6 hamt ha h63 hp),
      congrArg outcome (shiftOp_mask6 hamt ha h63 hp)⟩
  case math =>
    have hsar : BitVec.ofInt 64 (d.toInt / 2 ^ a.toNat) = if d.msb then 0xffffffffffffffff else 0 :=
      (sshiftRight_eq_ofInt_ediv d _).symm.trans (sshiftRight_of_le h63)
    have hshl : BitVec.ofNat 64 (d.toNat * 2 ^ a.toNat) = 0 :=
      (shiftLeft_eq_ofNat_mul d _).symm.trans (BitVec.shiftLeft_eq_zero h63)
    have hshr : BitVec.ofNat 64 (d.toNat / 2 ^ a.toNat) = 0 :=
      (ushiftRight_eq_ofNat_div d _).symm.trans (BitVec.ushiftRight_eq_zero h63)
    constructor
    · obtain ⟨u, hu, hexec⟩ := exec_of_shiftResult_math sarqResult hamt ha h63 hp hd hw hsar
      refine ⟨u, hu, ?_⟩
      rw [hexec]
      cases d.msb <;> rfl
    · obtain ⟨u, hu, hexec⟩ := exec_of_shiftResult_math shlqResult hamt ha h63 hp hd hw hshl
      obtain ⟨v, hv, hexec'⟩ := exec_of_shiftResult_math shrqResult hamt ha h63 hp hd hw hshr
      cases hu.symm.trans hv
      exact ⟨u, hu, hexec, hexec'⟩

/-- Settles O44: the three are one shape, whose frame is `shiftOp_frame`. -/
theorem frameOfShifts : Obligations.FrameOfShifts := by
  intro amt dst a s t
  simp only [List.forall_mem_cons]
  exact ⟨fun h => shiftOp_frame (outcome_eq_next.1 h), fun h => shiftOp_frame (outcome_eq_next.1 h),
    fun h => shiftOp_frame (outcome_eq_next.1 h), List.forall_mem_nil _⟩

/-! ## The write of one byte -/

/-- Another low byte is the old one masked out and the new one put in. -/
theorem withLowByte_eq_or (v : Word) (b : Byte) :
    withLowByte v b = (v &&& 0xffffffffffffff00) ||| b.setWidth 64 := by
  have hmask : (0xffffffffffffff00 : Word) = BitVec.allOnes 64 <<< 8 := rfl
  refine BitVec.eq_of_getLsbD_eq fun i hi => ?_
  rw [withLowByte, hmask]
  simp only [BitVec.getLsbD_append, BitVec.getLsbD_extractLsb', BitVec.getLsbD_or, BitVec.getLsbD_and,
    BitVec.getLsbD_shiftLeft, BitVec.getLsbD_allOnes, BitVec.getLsbD_setWidth]
  by_cases h8 : i < 8
  · simp [h8, hi]
  · have hb : b.getLsbD i = false := BitVec.getLsbD_of_ge b i (by omega)
    have hindex : 8 + (i - 8) = i := by omega
    have h56 : i - 8 < 56 := by omega
    have h64 : i - 8 < 64 := by omega
    simp [h8, hi, hb, hindex, h56, h64]

theorem withLowByte_ite (v : Word) (c : Bool) :
    withLowByte v (if c then 1 else 0) = (v &&& 0xffffffffffffff00) ||| (if c then 1 else 0) := by
  rw [withLowByte_eq_or]
  cases c <;> rfl

theorem storeByte_gpr (r : Gpr) (b : Byte) (s : State) :
    storeByte (.reg (.gpr r)) b s = readGpr r s >>= fun v => .ok (s.setGpr r (withLowByte v b)) := rfl

/-- In memory the write reads nothing and cannot pass the top, so only the address can fail. -/
theorem storeByte_of_isInd {op : Operand} (b : Byte) (s : State) (h : op.isInd = true) :
    storeByte op b s = addr op s >>= fun a => .ok (s.setBytes (lowByteAddr a s) [b]) := by
  simp only [← memWriteByte_ok]
  cases op with
  | imm i | reg r => cases h
  | ind1 d | ind2 r | ind3 d r => rfl

theorem lowByteAddr_little {s : State} (a : Word) (h : s.config.byteOrder = .little) : lowByteAddr a s = a := by
  rw [lowByteAddr, h]

theorem lowByteAddr_big {s : State} (a : Word) (h : s.config.byteOrder = .big) : lowByteAddr a s = a + 7 := by
  rw [lowByteAddr, h]

/-- Settles O32: `setb` reads its condition and writes the one byte, of a register or of memory. -/
theorem setbResult : Obligations.SetbResult := by
  intro cc dst r s
  simp only [exec_setb, setbOp]
  refine ⟨fun f hf => ?_, fun c hc => ?_⟩
  · rw [hf, bind_error, outcome_error]
  · simp only [hc, bind_ok, storeByte_gpr]
    refine ⟨fun v hv => ?_, fun hr => ?_, fun hop f hf => ?_, fun a ha => ?_⟩
    · rw [readGpr_of_gpr hv, bind_ok, outcome_ok, withLowByte_ite]
    · rw [readGpr_of_gpr_none hr, bind_error, outcome_error]
    · rw [storeByte_of_isInd _ s hop, hf, bind_error, outcome_error]
    · rw [storeByte_of_isInd _ s (addr_isInd ha), ha, bind_ok, outcome_ok]
      exact ⟨_, rfl, setBytes_one_cell s _ _, lowByteAddr_little a, lowByteAddr_big a,
        setBytes_memSameOutside s _ [_], rfl, rfl, rfl, rfl, rfl, rfl⟩

end Sys2Proof.Machine

/-! PROOFS. Data movement (44_data_movement.md): results, faults and completion of `leaq movq pushq popq`, and what a
push and a pop leave unchanged. -/

namespace Sys2Proof

/-- Under `RspOperandPolicy = refuse` an instruction of the three that D10 names is one of the table whose operand does
not use `rsp`. -/
theorem Instr.wellFormed_refuse_of_rspOperand {i : Instr} {op : Operand}
    (h : i = .pushq op ∨ i = .callq op ∨ i = .popq op) :
    i.wellFormed .refuse = true ↔ i.wellFormed .literal = true ∧ op.usesRsp = false := by
  rw [Instr.wellFormed_refuse_iff]
  rcases h with rfl | rfl | rfl <;> simp

namespace Machine

/-! ## Copies -/

/-- `leaq` with a register as its destination (R190). -/
theorem exec_leaq_gpr (src : Operand) (r : Gpr) (s : State) :
    exec (.leaq src (.reg (.gpr r))) s = outcome (addr src s >>= fun a => .ok (s.setGpr r a)) := rfl

theorem exec_movq (src dst : Operand) (s : State) :
    exec (.movq src dst) s = outcome (val src s >>= fun v => store dst v s) := rfl

/-- Settles O33: only the address can fail. -/
theorem leaqResult : Obligations.LeaqResult := by
  intro src r s _
  rw [exec_leaq_gpr]
  refine ⟨fun a ha => ?_, fun f hf => ?_⟩
  · rw [ha, bind_ok, outcome_ok]
  · rw [hf, bind_error, outcome_error]

/-- Settles O34: the read of `SRC`, then the store, which answers where `DEST` is writable (`store_ok_iff`). -/
theorem movqResult : Obligations.MovqResult := by
  intro src dst s
  rw [exec_movq]
  refine ⟨fun f hf => ?_, fun v hv => ⟨fun f hf => ?_, fun hw => ?_⟩⟩
  · rw [hf, bind_error, outcome_error]
  · rw [hv, bind_ok, hf, outcome_error]
  · obtain ⟨u, hu⟩ := store_ok_iff.2 hw
    exact ⟨u, hu, by rw [hv, bind_ok, hu, outcome_ok]⟩

/-! ## The statements of the stack, by what `rsp` holds -/

section

variable {s : State} {sp : Word}

theorem decrementRsp_of_none (h : s.gpr .rsp = none) : decrementRsp s = .error (.uninit (.reg .rsp)) := by
  rw [decrementRsp, readGpr_of_gpr_none h, bind_error]

theorem decrementRsp_of_some (h : s.gpr .rsp = some sp) : decrementRsp s = .ok (s.setGpr .rsp (sp - 8)) :=
  decrementRsp_eq_ok.2 ⟨sp, h, rfl⟩

theorem incrementRsp_of_some (h : s.gpr .rsp = some sp) : incrementRsp s = .ok (s.setGpr .rsp (sp + 8)) :=
  incrementRsp_eq_ok.2 ⟨sp, h, rfl⟩

theorem stackTop_of_none (h : s.gpr .rsp = none) : stackTop s = .error (.uninit (.reg .rsp)) := by
  rw [stackTop, readGpr_of_gpr_none h, bind_error]

theorem stackTop_of_some (h : s.gpr .rsp = some sp) : stackTop s = memRead sp s := by
  rw [stackTop, readGpr_of_gpr h, bind_ok]

theorem setStackTop_of_some (v : Word) (h : s.gpr .rsp = some sp) : setStackTop v s = memWrite sp v s := by
  rw [setStackTop, readGpr_of_gpr h, bind_ok]

end

/-! ## The state after a push -/

/-- The state once `v` is pushed where `rsp` was `sp`: `rsp` is 8 less, and `v` stands there (R192, R212). -/
def State.push (s : State) (sp v : Word) : State :=
  (s.setGpr .rsp (sp - 8)).setBytes (sp - 8) (quadBytes s.config.byteOrder v)

@[simp] theorem push_rip (s : State) (sp v : Word) : (s.push sp v).rip = s.rip := rfl
@[simp] theorem push_flags (s : State) (sp v : Word) : (s.push sp v).flags = s.flags := rfl

/-- A push is `MemWrite` at the new `rsp`, after the decrement. -/
theorem memWrite_eq_push {s : State} {sp : Word} (v : Word) (h : accessible (sp - 8) 8 s) :
    memWrite (sp - 8) v (s.setGpr .rsp (sp - 8)) = .ok (s.push sp v) :=
  memWrite_of_accessible v h

@[simp] theorem push_gpr_rsp (s : State) (sp v : Word) : (s.push sp v).gpr .rsp = some (sp - 8) := rfl

theorem push_gprsSameBut (s : State) (sp v : Word) : GprsSameBut [.rsp] s (s.push sp v) :=
  setGpr_gprsSameBut s .rsp (sp - 8)

theorem push_memSameOutside (s : State) (sp v : Word) : MemSameOutside (sp - 8) 8 s (s.push sp v) :=
  setQuad_memSameOutside (s.setGpr .rsp (sp - 8)) (sp - 8) s.config.byteOrder v

/-- The pushed quadword is the top of the stack. -/
theorem memRead_push {s : State} {sp : Word} (v : Word) (h : accessOk (sp - 8) 8 s = true) :
    memRead (sp - 8) (s.push sp v) = .ok v :=
  memRead_setBytes_quadBytes (s := s.setGpr .rsp (sp - 8)) v h

/-! ## Pushes -/

theorem exec_pushq (src : Operand) (s : State) :
    exec (.pushq src) s = outcome (decrementRsp s >>= fun u => val src u >>= fun v => setStackTop v u) := rfl

/-- Once `rsp` holds a value, a `pushq` is the read of `SRC` and the write, both with the new `rsp`. -/
theorem exec_pushq_of_some {s : State} {sp : Word} (src : Operand) (h : s.gpr .rsp = some sp) :
    exec (.pushq src) s = outcome (val src (s.setGpr .rsp (sp - 8)) >>= fun v =>
      memWrite (sp - 8) v (s.setGpr .rsp (sp - 8))) := by
  have hsp : (s.setGpr .rsp (sp - 8)).gpr .rsp = some (sp - 8) := setGpr_gpr_same s .rsp (sp - 8)
  rw [exec_pushq, decrementRsp_of_some h, bind_ok]
  simp only [setStackTop_of_some _ hsp]

/-- Settles O35: the write fails exactly where the slot passes the top. -/
theorem pushqResult : Obligations.PushqResult := by
  intro src s
  refine ⟨fun hsp => ?_, fun sp hsp => ?_, ?_⟩
  · rw [exec_pushq, decrementRsp_of_none hsp, bind_error, outcome_error]
  · rw [exec_pushq_of_some src hsp]
    refine ⟨fun f hf => ?_, fun v hv => ⟨fun ha => ?_, fun ha => ⟨s.push sp v, memWrite_eq_push v ha, ?_⟩⟩⟩
    · rw [hf, bind_error, outcome_error]
    · rw [hv, bind_ok, memWrite_of_not_accessible (s := s.setGpr .rsp (sp - 8)) v ha, outcome_error]
    · rw [hv, bind_ok, memWrite_eq_push v ha, outcome_ok]
  · have hlit : (Instr.pushq src).wellFormed .literal = true := rfl
    simp [Instr.wellFormed_refuse_of_rspOperand (.inl rfl), hlit]

/-- Settles O46: `callq` leaves what a push leaves, and then moves `rip`. -/
theorem frameOfPushes : Obligations.FrameOfPushes := by
  intro src s t
  simp only [List.forall_mem_cons]
  refine ⟨fun h => ?pushq, fun h => ?callq, List.forall_mem_nil _⟩
  case pushq =>
    obtain ⟨sp, v, hsp, -, -, rfl⟩ := execPushq_next h
    refine ⟨push_gprsSameBut s sp v, push_flags s sp v, exec_ownSame h, fun q hq => ?_, fun _ => push_rip s sp v⟩
    cases hsp.symm.trans hq
    exact push_memSameOutside s sp v
  case callq =>
    obtain ⟨sp, a, hsp, -, -, rfl⟩ := execCallq_next h
    refine ⟨push_gprsSameBut s sp s.rip, push_flags s sp s.rip, exec_ownSame h, fun q hq => ?_, Instr.noConfusion⟩
    cases hsp.symm.trans hq
    exact push_memSameOutside s sp s.rip

/-! ## Pops -/

theorem exec_popq (dst : Operand) (s : State) :
    exec (.popq dst) s = outcome (stackTop s >>= fun v => store dst v s >>= incrementRsp) := rfl

/-- What a general register holds after a store. -/
theorem store_gpr {dst : Operand} {v : Word} {s u : State} (h : store dst v s = .ok u) (q : Gpr) :
    u.gpr q = if dst = .reg (.gpr q) then some v else s.gpr q := by
  split
  case isTrue hdst =>
    subst hdst
    cases h
    exact setGpr_gpr_same s q v
  case isFalse hdst =>
    refine store_keeps_reg (q := .gpr q) h fun g hg e => hdst ?_
    cases e
    exact mem_destGprs.1 hg

/-- Settles O36: the increment is of the `rsp` that the store left, which is the popped value where `DEST` is `rsp`. -/
theorem popqResult : Obligations.PopqResult := by
  intro dst s
  rw [exec_popq]
  refine ⟨fun hsp => ?_, fun sp hsp => ?_, fun hloc => ?_⟩
  · rw [stackTop_of_none hsp, bind_error, outcome_error]
  · rw [stackTop_of_some hsp]
    refine ⟨fun f hf => ?_, fun v hv => ⟨fun f hf => ?_, fun hw => ?_⟩⟩
    · rw [hf, bind_error, outcome_error]
    · rw [hv, bind_ok, hf, bind_error, outcome_error]
    · obtain ⟨u, hu⟩ := store_ok_iff.2 hw
      have hrsp : u.gpr .rsp = some (if dst = .reg (.gpr .rsp) then v else sp) := by
        rw [store_gpr hu, hsp, ← apply_ite]
      exact ⟨u, hu, by rw [hv, bind_ok, hu, bind_ok, incrementRsp_of_some hrsp, outcome_ok]⟩
  · have hlit : (Instr.popq dst).wellFormed .literal = true := (Instr.wellFormed_unary rfl rfl rfl).2 hloc
    simp [Instr.wellFormed_refuse_of_rspOperand (.inr (.inr rfl)), hlit]

/-- Settles O47: the frame of the store, and `rsp`. -/
theorem frameOfPopq : Obligations.FrameOfPopq := by
  intro dst s t h
  obtain ⟨sp, v, u, q, -, -, hu, -, rfl⟩ := execPopq_next h
  obtain ⟨⟨hgpr, hrip, hown, hreg, hmem⟩, hflags⟩ := destFrame_and_flags_of_store hu
  refine ⟨fun r hr => ?_, hrip, hflags, hown, hreg, hmem⟩
  obtain ⟨hsp, hdst⟩ : r ≠ .rsp ∧ r ∉ destGprs dst := by simpa using hr
  rw [setGpr_gpr_other u _ hsp]
  exact hgpr r hdst

/-- Settles O57: the pop reads back the pushed quadword, and adds the 8 that the push took from `rsp`. -/
theorem popAfterPushRestores : Obligations.PopAfterPushRestores := by
  intro r s t hr h
  obtain ⟨sp, v, hsp, hv, hok, rfl⟩ := execPushq_next h
  have hrv : s.gpr r = some v := by
    rw [← setGpr_gpr_other s (sp - 8) hr]
    exact readGpr_eq_ok.1 hv
  obtain ⟨-, hpop, -⟩ := popqResult (.reg (.gpr r)) (s.push sp v)
  obtain ⟨-, hread⟩ := hpop (sp - 8) (push_gpr_rsp s sp v)
  obtain ⟨-, hnext⟩ := hread v (memRead_push v hok)
  obtain ⟨u, hu, hexec⟩ := hnext trivial
  refine ⟨_, hexec, fun q => ?_⟩
  by_cases hq : q = .rsp
  · subst hq
    rw [setGpr_gpr_same, if_neg (by simpa using hr), BitVec.sub_add_cancel, hsp]
  · rw [setGpr_gpr_other u _ hq, store_gpr hu]
    split
    case isTrue e => cases e; exact hrv.symm
    case isFalse => exact push_gprsSameBut s sp v q (by simpa using hq)

end Machine

end Sys2Proof

/-! PROOFS. Control flow (45_control_flow.md): results, faults and completion of `cmpq jmp callq retq j`, what the jumps
and the return leave unchanged, and the return to the instruction after a call. -/

namespace Sys2Proof.Machine

/-! ## The comparison -/

theorem exec_cmpq (src1 src2 : Operand) (s : State) :
    exec (.cmpq src1 src2) s = outcome (val src1 s >>= fun x => val src2 s >>= fun d =>
      .ok (s.withFlags (flagsOf (ovfSub d x) (d - x)))) := rfl

/-- Settles O37: the overflow predicate is the range test of the signed difference. -/
theorem cmpqResult : Obligations.CmpqResult := by
  intro src1 src2 s
  rw [exec_cmpq]
  refine ⟨fun f hf => ?_, fun x hx => ⟨fun f hf => ?_, fun d hd => ?_⟩⟩
  · rw [hf, bind_error, outcome_error]
  · rw [hx, bind_ok, hf, bind_error, outcome_error]
  · rw [hx, bind_ok, hd, bind_ok, outcome_ok, ovfSub_eq_outside64]

/-! ## Jumps -/

/-- How `jmp`, `callq` and a taken `j` end: the faults of `SRC`, or `rip` at its value (R211, R212, R214). -/
theorem outcome_jumpTo (src : Operand) (s : State) :
    (∀ f, val src s = .error f → outcome (jumpTo src s) = .fault f) ∧
      (∀ t, val src s = .ok t → outcome (jumpTo src s) = .next (s.setRip t)) := by
  refine ⟨fun f hf => ?_, fun t ht => ?_⟩
  · rw [jumpTo, hf, bind_error, outcome_error]
  · rw [jumpTo, ht, bind_ok, pure_eq_ok, outcome_ok]

/-- Settles O38: a `jmp` is `jumpTo` and nothing else. -/
theorem jmpResult : Obligations.JmpResult := outcome_jumpTo

/-- `j` with each code is one meaning, given the code (R214). -/
theorem exec_j (cc : CondCode) (src : Operand) (s : State) : exec (Instr.j cc src) s = outcome (jOp cc src s) := by
  cases cc <;> rfl

theorem jOp_untaken {cc : CondCode} {s : State} (src : Operand) (h : condition cc s = .ok false) :
    jOp cc src s = .ok s := by
  rw [jOp, h]
  rfl

theorem jOp_taken {cc : CondCode} {s : State} (src : Operand) (h : condition cc s = .ok true) :
    jOp cc src s = jumpTo src s := by
  rw [jOp, h]
  rfl

/-- Settles O41: the condition faults, is false and ends the instruction, or is true and leaves a jump. -/
theorem conditionalJumpResult : Obligations.ConditionalJumpResult := by
  intro cc src s
  rw [exec_j]
  refine ⟨fun f hf => ?fault, fun hc => ?untaken, fun hc => ?taken⟩
  case fault => rw [jOp, hf, bind_error, outcome_error]
  case untaken => rw [jOp_untaken src hc, outcome_ok]
  case taken =>
    rw [jOp_taken src hc]
    exact outcome_jumpTo src s

/-! ## The call -/

theorem exec_callq (src : Operand) (s : State) :
    exec (.callq src) s = outcome (decrementRsp s >>= fun u => setStackTop u.rip u >>= jumpTo src) := rfl

/-- Once `rsp` holds a value, a `callq` is the write of `rip` with the new `rsp`, then the jump. -/
theorem exec_callq_of_some {s : State} {sp : Word} (src : Operand) (h : s.gpr .rsp = some sp) :
    exec (.callq src) s = outcome (memWrite (sp - 8) s.rip (s.setGpr .rsp (sp - 8)) >>= jumpTo src) := by
  have hsp : (s.setGpr .rsp (sp - 8)).gpr .rsp = some (sp - 8) := setGpr_gpr_same s .rsp (sp - 8)
  rw [exec_callq, decrementRsp_of_some h, bind_ok, setStackTop_of_some _ hsp, setGpr_rip]

/-- Settles O39: the write fails exactly where the slot passes the top, and the jump starts from the state it leaves. -/
theorem callqResult : Obligations.CallqResult := by
  intro src s
  refine ⟨fun hsp => ?_, fun sp hsp => ?_, ?_⟩
  · rw [exec_callq, decrementRsp_of_none hsp, bind_error, outcome_error]
  · rw [exec_callq_of_some src hsp]
    refine ⟨fun ha => ?_, fun ha => ⟨s.push sp s.rip, memWrite_eq_push s.rip ha, ?_⟩⟩
    · rw [memWrite_of_not_accessible (s := s.setGpr .rsp (sp - 8)) s.rip ha, bind_error, outcome_error]
    · rw [memWrite_eq_push s.rip ha, bind_ok]
      exact outcome_jumpTo src (s.push sp s.rip)
  · have hlit : (Instr.callq src).wellFormed .literal = true := rfl
    simp [Instr.wellFormed_refuse_of_rspOperand (.inr (.inl rfl)), hlit]

/-! ## The return -/

theorem exec_retq (s : State) :
    exec .retq s = outcome (stackTop s >>= fun t => incrementRsp (s.setRip t)) := rfl

/-- Settles O40: only the read of the top of the stack can fail; the increment is of the `rsp` it read at. -/
theorem retqResult : Obligations.RetqResult := by
  intro s
  rw [exec_retq]
  refine ⟨fun hsp => ?_, fun sp hsp => ?_⟩
  · rw [stackTop_of_none hsp, bind_error, outcome_error]
  · rw [stackTop_of_some hsp]
    refine ⟨fun f hf => ?_, fun t ht => ?_⟩
    · rw [hf, bind_error, outcome_error]
    · have hrip : (s.setRip t).gpr .rsp = some sp := hsp
      rw [ht, bind_ok, incrementRsp_of_some hrip, outcome_ok]

/-! ## What the jumps and the return leave unchanged -/

/-- Settles O48: `jmp` and a taken `j` set `rip`, an untaken `j` leaves the state; `retq` sets `rip` and `rsp`. -/
theorem frameOfJumpsAndReturn : Obligations.FrameOfJumpsAndReturn := by
  intro cc src s t
  simp only [List.forall_mem_cons]
  refine ⟨⟨fun h => ?jmp, fun h => ?j, List.forall_mem_nil _⟩, fun h => ?retq⟩
  case jmp =>
    obtain ⟨a, -, rfl⟩ := execJmp_next h
    exact ⟨rfl, fun _ => rfl, rfl, exec_ownSame h⟩
  case j =>
    have hown := exec_ownSame h
    rw [exec_j, outcome_eq_next] at h
    obtain ⟨-, a, -, rfl⟩ | ⟨-, rfl⟩ := jOp_ok h
    · exact ⟨rfl, fun _ => rfl, rfl, hown⟩
    · exact ⟨rfl, fun _ => rfl, rfl, hown⟩
  case retq =>
    obtain ⟨sp, a, -, -, rfl⟩ := execRetq_next h
    exact ⟨setGpr_gprsSameBut (s.setRip a) .rsp (sp + 8), fun _ => rfl, rfl, exec_ownSame h⟩

/-! ## The return after the call -/

/-- The pushed quadword is read back in any state with the memory and policies that the push left: its cells hold
bytes, so no register, flag or draw has a part in the read. -/
theorem memRead_of_pushed_mem {s v : State} {sp x : Word} (hok : accessOk (sp - 8) 8 s = true)
    (hmem : v.mem = (s.push sp x).mem) (hconfig : v.config = s.config) : memRead (sp - 8) v = .ok x := by
  have hacc : accessible (sp - 8) 8 v := by
    rw [accessible, hconfig]
    exact accessOk_iff.1 hok
  refine memRead_of_byte_cells hacc fun k hk => ?_
  rw [State.cell, hmem, hconfig]
  exact setQuad_cell (s.setGpr .rsp (sp - 8)) (sp - 8) x s.config.byteOrder hk

/-- Settles O58: the `retq` reads back the `rip` that the call pushed, and adds the 8 that the push took from `rsp`. -/
theorem returnAfterCallComesBack : Obligations.ReturnAfterCallComesBack := by
  intro src s t v h hrsp hmem hconfig
  obtain ⟨sp, a, hsp, hok, -, rfl⟩ := execCallq_next h
  have hread : memRead (sp - 8) v = .ok s.rip := memRead_of_pushed_mem hok hmem hconfig
  have hv : v.gpr .rsp = some (sp - 8) := hrsp
  obtain ⟨-, hret⟩ := retqResult v
  obtain ⟨-, hnext⟩ := hret (sp - 8) hv
  refine ⟨_, hnext s.rip hread, rfl, ?_⟩
  rw [setGpr_gpr_same, BitVec.sub_add_cancel, hsp]

end Sys2Proof.Machine

/-! PROOFS. Faults (60_exceptions.md): what a step's fault says of the state the step began in, and that a run in which
every register and flag holds a value never meets one that holds none. -/

namespace Sys2Proof.Machine

/-! ## Back to the state before the step -/

theorem enterInstr_back (s : State) : Back s (enterInstr s) :=
  ⟨rfl, fun _ => .inl rfl, fun _ => id, fun _ => id⟩

theorem step_back {s t : State} (h : step s = .next t) : Back s t := by
  obtain ⟨-, i, -, -, hexec⟩ := step_next h
  exact goodBack.trans (enterInstr_back s) (related_of_exec goodBack hexec)

/-! ## `F_FETCH` -/

/-- At `HaltAddr` there is no step, so none that faults (R276). -/
theorem rip_ne_haltAddr_of_step_fault {s : State} {f : Fault} (h : step s = .fault f) : s.rip ≠ s.haltAddr := by
  intro hhalt
  rw [step, if_pos hhalt] at h
  cases h

/-- A step that raises `F_FETCH` found no term: an ill-formed one raises `F_ILLFORMED`, a well-formed one runs. -/
theorem no_term_of_step_fetch {s : State} {a : Word} (h : step s = .fault (.fetch a)) (t : Term) :
    ¬ TermStandsAt t s.rip s := by
  intro ht
  have hne := rip_ne_haltAddr_of_step_fault h
  cases hw : t.wellFormed s.config.rspOperand with
  | false =>
    rw [step_of_illFormed_term hne ht hw] at h
    cases h
  | true =>
    obtain ⟨i, rfl, hi⟩ := Term.wellFormed_iff.1 hw
    obtain ⟨hstep, -⟩ := stepRunsTheDecodedInstruction i s hne ht hi
    rw [hstep] at h
    rcases exec_err hi h with hfine | ⟨-, b, hb, -⟩
    · exact hfine
    · cases hb

/-! ## What each fault says -/

/-- Settles O56: the fetch and the check name `rip`; what the instruction raises in the state entered (`exec_err`) is
said of the state before it, which the entry leaves as it was but for `rip` and the draw number. -/
theorem faultsSayWhatHappened : Obligations.FaultsSayWhatHappened := by
  intro s f h
  rcases step_fault h with rfl | ⟨rfl, t, ⟨-, hhead, -⟩, hw⟩ | ⟨i, hi, hw, hexec⟩
  · exact ⟨rfl, fetch_of_no_term (no_term_of_step_fetch h)⟩
  · exact ⟨rfl, t, hhead, Term.wellFormed_eq_false_iff.1 hw⟩
  · rcases exec_err hw hexec with hfine | ⟨⟨amt, dst, hshift⟩, a, rfl, hpolicy, hrange⟩
    · have hbefore : Fine s f := hfine.back (enterInstr_back s)
      cases f with
      | fetch a | illFormed a | shiftRange a => exact hbefore.elim
      | addrWrap a | codeRead a => exact hbefore
      | uninit w => cases w <;> exact hbefore
    · have hfetch : fetch s.rip s = .ok (some i) := fetch_eq_some.2 hi
      refine ⟨hpolicy, hrange, amt, dst, ?_⟩
      simpa only [hfetch, Except.ok.injEq, Option.some.injEq] using hshift

/-! ## What holds a value -/

theorem allValued_iff {s : State} : s.allValued ↔ (∀ r, s.gpr r ≠ none) ∧ ∀ g, s.flag g ≠ none := by
  simp only [State.allValued, Option.isSome_iff_ne_none]

/-- What holds a value before updates holds one after them. -/
theorem Back.allValued {s t : State} (h : Back s t) (hs : s.allValued) : t.allValued := by
  obtain ⟨hregs, hflags⟩ := allValued_iff.1 hs
  exact allValued_iff.2 ⟨fun r hnone => hregs r (h.g r hnone), fun g hnone => hflags g (h.f g hnone)⟩

/-- Settles O51: a step takes no value away, and its `F_UNINIT` names what held none before it. -/
theorem stepKeepsRegistersAndFlagsValued : Obligations.StepKeepsRegistersAndFlagsValued := by
  intro s hs
  refine ⟨fun t h => (step_back h).allValued hs, fun w h => ?_⟩
  obtain ⟨hregs, hflags⟩ := allValued_iff.1 hs
  have hnone := faultsSayWhatHappened s _ h
  cases w with
  | reg r => exact absurd hnone (hregs r)
  | flag g => exact absurd hnone (hflags g)
  | cell a => exact ⟨a, rfl⟩

end Sys2Proof.Machine

/-! PROOFS. The launch and the end of a run (70_reset_and_hazards.md): where there is no step, what the first state of a
run holds, and the return of the entry procedure. -/

namespace Sys2Proof.Machine

/-! ## The end of a run -/

theorem step_of_ended {s : State} (h : s.ended) : step s = .refused .runEnded := if_pos h

/-- A refused step was at `HaltAddr`: past that test a step faults or runs an instruction, and none of them refuses. -/
theorem step_refused {s : State} {r : Refusal} (h : step s = .refused r) : s.ended ∧ r = .runEnded := by
  unfold step at h
  split at h
  · rename_i hend
    cases h
    exact ⟨hend, rfl⟩
  · split at h
    · cases h
    · cases h
    · split at h
      · exact absurd h (exec_ne_refused _ _ r)
      · cases h

/-- Settles O8: the test of `HaltAddr` is the one place where `step` refuses (`step_refused`). -/
theorem runEndsExactlyAtHaltAddr : Obligations.RunEndsExactlyAtHaltAddr :=
  fun _ => ⟨step_of_ended, fun _ => step_refused⟩

/-! ## The first state of a run -/

/-- The first state is the one with the launch's memory, after the write of `HaltAddr` at `Rsp0` (R275). -/
theorem Launch.start_eq_setBytes (l : Launch) :
    l.start = { l.start with mem := l.mem0 }.setBytes l.rsp0 (quadBytes l.config.byteOrder l.haltAddr) := rfl

theorem Launch.start_gpr_rsp (l : Launch) : l.start.gpr .rsp = some l.rsp0 := rfl

theorem Launch.start_gpr_other (l : Launch) {r : Gpr} (h : r ≠ .rsp) : l.start.gpr r = l.regs0.get r :=
  RegFile.get_set_other l.regs0 l.rsp0 h

theorem Launch.start_cell_outside (l : Launch) {x : Word} (h : ¬ inBytes l.rsp0 8 x) :
    l.start.cell x = l.mem0.get x.toNat := by
  rw [l.start_eq_setBytes]
  exact setQuad_memSameOutside _ _ _ _ x h

/-- The quadword at `Rsp0` is `HaltAddr`, wherever `rip` points: its cells hold bytes, and a read of bytes does not ask
`rip`. -/
theorem Launch.memRead_start_setRip (l : Launch) (p : Word) (h : accessible l.rsp0 8 l.start) :
    memRead l.rsp0 (l.start.setRip p) = .ok l.haltAddr :=
  memRead_setBytes_quadBytes (s := { l.start with mem := l.mem0 }.setRip p) l.haltAddr (accessOk_iff.2 h)

theorem Launch.memRead_start (l : Launch) (h : accessible l.rsp0 8 l.start) :
    memRead l.rsp0 l.start = .ok l.haltAddr :=
  l.memRead_start_setRip l.entry h

/-! ## The return of the entry procedure -/

/-- A `retq` on the stack of the launch pops `HaltAddr` into `rip` (R275). -/
theorem Launch.exec_retq_start (l : Launch) (p : Word) (h : accessible l.rsp0 8 l.start) :
    exec .retq (l.start.setRip p) =
      .next (((l.start.setRip p).setRip l.haltAddr).setGpr .rsp (l.rsp0 + 8)) := by
  obtain ⟨-, hret⟩ := retqResult (l.start.setRip p)
  obtain ⟨-, hnext⟩ := hret l.rsp0 l.start_gpr_rsp
  exact hnext l.haltAddr (l.memRead_start_setRip p h)

/-- Settles O59: the launch writes `rsp` and the eight bytes at `Rsp0`, and the `retq` pops them into `rip`. -/
theorem launchStateAndItsReturn : Obligations.LaunchStateAndItsReturn := by
  intro l
  refine ⟨rfl, l.start_gpr_rsp, fun _ => l.start_gpr_other, rfl, rfl, rfl, fun _ => l.start_cell_outside,
    fun hacc => ⟨l.memRead_start hacc, fun p => ?_⟩⟩
  exact ⟨_, l.exec_retq_start p hacc, rfl, setGpr_gpr_same _ _ _⟩

end Sys2Proof.Machine
